-- ==== Sys2Proof/Word.lean ====
section
/-! DEFINITION. The widths of the machine (00_scope.md R4, R5): words, bytes, register indices, shift amounts. -/

namespace Sys2Proof

/-- XLEN = 32: a general register, the pc, an instruction word, every ALU result (R4). -/
abbrev Word := BitVec 32

/-- The unit of addressing, one 8-bit byte (R30). -/
abbrev Byte := BitVec 8

/-- A general register's index, 0 to 31 (R10, R12). -/
abbrev Reg := Fin 32

/-- A shift amount, always five bits, 0 to 31 (R55, R131). -/
abbrev Shamt := BitVec 5

end Sys2Proof
end

