-- ==== Sys2Proof/Machine/Flags.lean ====
section
/-! DEFINITION. The machine has no flags and no condition codes (10_state.md R19): a comparison writes 0 or 1 to a general register (43_op.md R130). -/

namespace Sys2Proof.Machine

/-- `a <s b`: two's-complement comparison (R130). -/
def ltSigned (a b : Word) : Bool := a.slt b

/-- `a <u b`: unsigned comparison (R130). -/
def ltUnsigned (a b : Word) : Bool := a.ult b

/-- The vector a comparison writes: 0x00000001 where the relation holds, else 0x00000000 (R130). -/
def truthWord (b : Bool) : Word := if b then 1#32 else 0#32

end Sys2Proof.Machine
end

