-- ==== Sys2Proof/Machine/Alu.lean ====
section
/-! DEFINITION. The ALU operations that OP-IMM and OP share (43_op.md R130, R131, R132, R144). -/

namespace Sys2Proof.Machine

/-- Addition modulo 2^32, no overflow indication (R144). -/
def aluAdd (a b : Word) : Word := a + b

/-- Subtraction modulo 2^32 (R144). -/
def aluSub (a b : Word) : Word := a - b

/-- Bitwise exclusive or (R132). -/
def aluXor (a b : Word) : Word := a ^^^ b

/-- Bitwise inclusive or (R132). -/
def aluOr (a b : Word) : Word := a ||| b

/-- Bitwise and (R132), not the truth-value and. -/
def aluAnd (a b : Word) : Word := a &&& b

/-- Set if less than, signed (R130). -/
def aluSlt (a b : Word) : Word := truthWord (ltSigned a b)

/-- Set if less than, unsigned (R130). -/
def aluSltu (a b : Word) : Word := truthWord (ltUnsigned a b)

/-- `a << n`: zeros enter at bit 0 (R131). -/
def aluSll (a : Word) (n : Shamt) : Word := a <<< n.toNat

/-- `a >>u n`: zeros enter at bit 31 (R131). -/
def aluSrl (a : Word) (n : Shamt) : Word := a >>> n.toNat

/-- `a >>s n`: copies of bit 31 enter at bit 31 (R131). -/
def aluSra (a : Word) (n : Shamt) : Word := a.sshiftRight n.toNat

end Sys2Proof.Machine
end

