-- ==== Sys2Proof/Syntax.lean ====
section
/-! DEFINITION. The 23 instructions (00_scope.md R2), one constructor per row of the opcode table, in the table's order, with the operands that the decode function of 30_encoding.md R62 gives them. -/

namespace Sys2Proof

/-- An instruction with the operands R62 names: `immI`, `immU` and `offJ` are the 32-bit vectors of R54, R56 and R57,
`shamt` the five bits of R55. DESIGN CHOICE (safe): a term may hold an operand no encoding gives; notes/assumptions/5.md. -/
inductive Instr where
  | addi (rd rs1 : Reg) (immI : Word)
  | slti (rd rs1 : Reg) (immI : Word)
  | sltiu (rd rs1 : Reg) (immI : Word)
  | xori (rd rs1 : Reg) (immI : Word)
  | ori (rd rs1 : Reg) (immI : Word)
  | andi (rd rs1 : Reg) (immI : Word)
  | slli (rd rs1 : Reg) (shamt : Shamt)
  | srli (rd rs1 : Reg) (shamt : Shamt)
  | srai (rd rs1 : Reg) (shamt : Shamt)
  | lui (rd : Reg) (immU : Word)
  | auipc (rd : Reg) (immU : Word)
  | add (rd rs1 rs2 : Reg)
  | sub (rd rs1 rs2 : Reg)
  | sll (rd rs1 rs2 : Reg)
  | slt (rd rs1 rs2 : Reg)
  | sltu (rd rs1 rs2 : Reg)
  | xor (rd rs1 rs2 : Reg)
  | srl (rd rs1 rs2 : Reg)
  | sra (rd rs1 rs2 : Reg)
  | or (rd rs1 rs2 : Reg)
  | and (rd rs1 rs2 : Reg)
  | jal (rd : Reg) (offJ : Word)
  | jalr (rd rs1 : Reg) (immI : Word)
  deriving DecidableEq, Repr

/-- The destination field: every instruction has one and writes `x[rd]` exactly once (10_state.md R12). -/
def Instr.rd : Instr → Reg
  | .addi rd _ _ | .slti rd _ _ | .sltiu rd _ _ | .xori rd _ _ | .ori rd _ _ | .andi rd _ _ => rd
  | .slli rd _ _ | .srli rd _ _ | .srai rd _ _ => rd
  | .lui rd _ | .auipc rd _ => rd
  | .add rd _ _ | .sub rd _ _ | .sll rd _ _ | .slt rd _ _ | .sltu rd _ _ => rd
  | .xor rd _ _ | .srl rd _ _ | .sra rd _ _ | .or rd _ _ | .and rd _ _ => rd
  | .jal rd _ | .jalr rd _ _ => rd

/-- The registers an instruction reads (R12): `rs1` (OP-IMM, JALR), `rs1` and `rs2` (OP), none (LUI, AUIPC, JAL). -/
def Instr.sources : Instr → List Reg
  | .addi _ rs1 _ | .slti _ rs1 _ | .sltiu _ rs1 _ | .xori _ rs1 _ | .ori _ rs1 _ | .andi _ rs1 _ => [rs1]
  | .slli _ rs1 _ | .srli _ rs1 _ | .srai _ rs1 _ => [rs1]
  | .lui _ _ | .auipc _ _ => []
  | .add _ rs1 rs2 | .sub _ rs1 rs2 | .sll _ rs1 rs2 | .slt _ rs1 rs2 | .sltu _ rs1 rs2 => [rs1, rs2]
  | .xor _ rs1 rs2 | .srl _ rs1 rs2 | .sra _ rs1 rs2 | .or _ rs1 rs2 | .and _ rs1 rs2 => [rs1, rs2]
  | .jal _ _ => []
  | .jalr _ rs1 _ => [rs1]

/-- JAL and JALR, the only control transfers (44_jump.md, 40_fetch_cycle.md R83). -/
def Instr.isJump : Instr → Bool
  | .jal _ _ | .jalr _ _ _ => true
  | .addi _ _ _ | .slti _ _ _ | .sltiu _ _ _ | .xori _ _ _ | .ori _ _ _ | .andi _ _ _ => false
  | .slli _ _ _ | .srli _ _ _ | .srai _ _ _ | .lui _ _ | .auipc _ _ => false
  | .add _ _ _ | .sub _ _ _ | .sll _ _ _ | .slt _ _ _ | .sltu _ _ _ => false
  | .xor _ _ _ | .srl _ _ _ | .sra _ _ _ | .or _ _ _ | .and _ _ _ => false

end Sys2Proof
end

