-- ==== Sys2Proof/WellFormed.lean ====
section
/-! DEFINITION. Which operands an encoding can hold: the ranges of 30_encoding.md R54, R56, R57 and R70. Register indices and shift amounts are in range by their types (R12, R55). -/

namespace Sys2Proof

/-- `imm_I` ranges over -2048 to 2047 (R54, R70). -/
def immIFits (imm : Word) : Bool := decide (-2048 ≤ imm.toInt ∧ imm.toInt ≤ 2047)

/-- `imm_U` has its low 12 bits zero (R56). -/
def immUFits (imm : Word) : Bool := decide (imm.toNat % 4096 = 0)

/-- `off_J` is even and ranges over -1048576 to 1048574 (R57, R70). -/
def offJFits (off : Word) : Bool :=
  decide (-1048576 ≤ off.toInt ∧ off.toInt ≤ 1048574 ∧ off.toNat % 2 = 0)

/-- An instruction whose operands its encoding can hold. -/
def Instr.wf : Instr → Bool
  | .addi _ _ imm => immIFits imm
  | .slti _ _ imm => immIFits imm
  | .sltiu _ _ imm => immIFits imm
  | .xori _ _ imm => immIFits imm
  | .ori _ _ imm => immIFits imm
  | .andi _ _ imm => immIFits imm
  | .slli _ _ _ => true
  | .srli _ _ _ => true
  | .srai _ _ _ => true
  | .lui _ imm => immUFits imm
  | .auipc _ imm => immUFits imm
  | .add _ _ _ => true
  | .sub _ _ _ => true
  | .sll _ _ _ => true
  | .slt _ _ _ => true
  | .sltu _ _ _ => true
  | .xor _ _ _ => true
  | .srl _ _ _ => true
  | .sra _ _ _ => true
  | .or _ _ _ => true
  | .and _ _ _ => true
  | .jal _ off => offJFits off
  | .jalr _ _ imm => immIFits imm

end Sys2Proof
end

