-- ==== Sys2Proof/Decode.lean ====
section
/-! DEFINITION. 30_encoding.md: the field slices (R52 to R57), the total decode function (R62), the encoder (R51, R69), the byte order of an instruction word (R50). -/

namespace Sys2Proof

/-- Sign extension to 32 bits, the source's shared utility (00_scope.md R6). -/
def sext {n : Nat} (v : BitVec n) : Word := v.signExtend 32

/-! Field extraction: fixed slices of the word, each independent of every other (R58). -/

/-- `opcode = inst[6:0]` (R52). -/
def opcodeOf (w : Word) : BitVec 7 := w.extractLsb 6 0

/-- `rd = inst[11:7]` (R53, R54, R56, R57). -/
def rdOf (w : Word) : Reg := (w.extractLsb 11 7).toFin

/-- `funct3 = inst[14:12]` (R53, R54). -/
def funct3Of (w : Word) : BitVec 3 := w.extractLsb 14 12

/-- `rs1 = inst[19:15]` (R53, R54). -/
def rs1Of (w : Word) : Reg := (w.extractLsb 19 15).toFin

/-- `rs2 = inst[24:20]` (R53). -/
def rs2Of (w : Word) : Reg := (w.extractLsb 24 20).toFin

/-- `b30 = inst[30]`, the alternate-operation flag (R53, R55). -/
def b30Of (w : Word) : Bool := w.getLsbD 30

/-- `imm_I = sext_12(inst[31:20])` (R54). -/
def immIOf (w : Word) : Word := sext (w.extractLsb 31 20)

/-- `shamt = inst[24:20]` (R55). -/
def shamtOf (w : Word) : Shamt := w.extractLsb 24 20

/-- `imm_U = inst[31:12] ++ 0^12` (R56). -/
def immUOf (w : Word) : Word := w.extractLsb 31 12 ++ 0#12

/-- `off21`: `inst[31] ++ inst[19:12] ++ inst[20] ++ inst[30:21] ++ 0` (R57). -/
def off21Of (w : Word) : BitVec 21 :=
  w.extractLsb 31 31 ++ w.extractLsb 19 12 ++ w.extractLsb 20 20 ++ w.extractLsb 30 21 ++ 0#1

/-- `off_J = sext_21(off21)`, a byte count, not scaled (R57, 90_conflicts.md C1). -/
def offJOf (w : Word) : Word := sext (off21Of w)

/-! The opcode and funct3 values (R59 to R61, R65). UNVERIFIED (unsafe): the spec states these numbers and says
that its source gives none (its G1 to G4); notes/assumptions/6.md. -/

def opcOpImm : BitVec 7 := 0b0010011#7
def opcLui : BitVec 7 := 0b0110111#7
def opcAuipc : BitVec 7 := 0b0010111#7
def opcOp : BitVec 7 := 0b0110011#7
def opcJal : BitVec 7 := 0b1101111#7
def opcJalr : BitVec 7 := 0b1100111#7

/-- OP-IMM: the operation by funct3, and by `b30` for funct3 101; every funct3 value is used, the last `else` being 111
(R60, R62). Bits the dispatch does not read are ignored (R63). UNVERIFIED (unsafe): the spec's decision D2;
notes/assumptions/7.md. -/
def decodeOpImm (w : Word) : Instr :=
  if funct3Of w = 0b000#3 then .addi (rdOf w) (rs1Of w) (immIOf w)
  else if funct3Of w = 0b001#3 then .slli (rdOf w) (rs1Of w) (shamtOf w)
  else if funct3Of w = 0b010#3 then .slti (rdOf w) (rs1Of w) (immIOf w)
  else if funct3Of w = 0b011#3 then .sltiu (rdOf w) (rs1Of w) (immIOf w)
  else if funct3Of w = 0b100#3 then .xori (rdOf w) (rs1Of w) (immIOf w)
  else if funct3Of w = 0b101#3 then
    (if b30Of w then .srai (rdOf w) (rs1Of w) (shamtOf w) else .srli (rdOf w) (rs1Of w) (shamtOf w))
  else if funct3Of w = 0b110#3 then .ori (rdOf w) (rs1Of w) (immIOf w)
  else .andi (rdOf w) (rs1Of w) (immIOf w)

/-- OP: the operation by funct3, and by `b30` for funct3 000 and 101; every funct3 value is used, the last `else` being 111
(R61, R62). Bits the dispatch does not read are ignored (R64). UNVERIFIED (unsafe): as for OP-IMM. -/
def decodeOp (w : Word) : Instr :=
  if funct3Of w = 0b000#3 then
    (if b30Of w then .sub (rdOf w) (rs1Of w) (rs2Of w) else .add (rdOf w) (rs1Of w) (rs2Of w))
  else if funct3Of w = 0b001#3 then .sll (rdOf w) (rs1Of w) (rs2Of w)
  else if funct3Of w = 0b010#3 then .slt (rdOf w) (rs1Of w) (rs2Of w)
  else if funct3Of w = 0b011#3 then .sltu (rdOf w) (rs1Of w) (rs2Of w)
  else if funct3Of w = 0b100#3 then .xor (rdOf w) (rs1Of w) (rs2Of w)
  else if funct3Of w = 0b101#3 then
    (if b30Of w then .sra (rdOf w) (rs1Of w) (rs2Of w) else .srl (rdOf w) (rs1Of w) (rs2Of w))
  else if funct3Of w = 0b110#3 then .or (rdOf w) (rs1Of w) (rs2Of w)
  else .and (rdOf w) (rs1Of w) (rs2Of w)

/-- Why bytes are no instruction. The first two together are the spec's `Unrecognised` (R66). -/
inductive DecodeReject where
  /-- (a) of R66: the opcode is none of the six -/
  | unknownOpcode
  /-- (b) of R66: opcode 1100111 with funct3 other than 000 (R65) -/
  | jalrFunct3
  /-- fewer than the four bytes of an instruction (R50): no cycle meets this, a fetch reads four bytes or faults;
  DESIGN CHOICE (safe), notes/assumptions/22.md -/
  | truncated
  deriving DecidableEq, Repr

/-- The decode function, total on words (R62). -/
def decode (w : Word) : Except DecodeReject Instr :=
  if opcodeOf w = opcOpImm then .ok (decodeOpImm w)
  else if opcodeOf w = opcLui then .ok (.lui (rdOf w) (immUOf w))
  else if opcodeOf w = opcAuipc then .ok (.auipc (rdOf w) (immUOf w))
  else if opcodeOf w = opcOp then .ok (decodeOp w)
  else if opcodeOf w = opcJal then .ok (.jal (rdOf w) (offJOf w))
  else if opcodeOf w = opcJalr then
    (if funct3Of w = 0b000#3 then .ok (.jalr (rdOf w) (rs1Of w) (immIOf w)) else .error .jalrFunct3)
  else .error .unknownOpcode

/-! Byte order (20_memory.md R32, R33, R50): the byte at the lowest address is the least significant. -/

/-- The word whose bytes, from the lowest address up, are `b0 b1 b2 b3` (R33). -/
def wordOfBytes (b0 b1 b2 b3 : Byte) : Word := b3 ++ b2 ++ b1 ++ b0

/-- Byte `k` of a word, 0 the least significant: `v[8k+7:8k]` (R32). -/
def byteOfWord (v : Word) (k : Nat) : Byte := v.extractLsb' (8 * k) 8

/-- Decode the instruction at the head of a list of bytes, and answer the bytes after it (R50: always four). -/
def decodeBytes : List Byte → Except DecodeReject (Instr × List Byte)
  | b0 :: b1 :: b2 :: b3 :: rest =>
    match decode (wordOfBytes b0 b1 b2 b3) with
    | .ok i => .ok (i, rest)
    | .error e => .error e
  | _ => .error .truncated

/-! The encoder (R51), giving the canonical word: zero in every bit the decoder does not read (R69). -/

/-- A register index as its five-bit field. -/
def regBits (r : Reg) : BitVec 5 := BitVec.ofFin r

/-- R format: `funct7 rs2 rs1 funct3 rd opcode`. -/
def encodeR (f7 : BitVec 7) (rs2 rs1 : Reg) (f3 : BitVec 3) (rd : Reg) (op : BitVec 7) : Word :=
  f7 ++ regBits rs2 ++ regBits rs1 ++ f3 ++ regBits rd ++ op

/-- I format: `imm[11:0] rs1 funct3 rd opcode`. -/
def encodeI (imm : Word) (rs1 : Reg) (f3 : BitVec 3) (rd : Reg) (op : BitVec 7) : Word :=
  imm.extractLsb 11 0 ++ regBits rs1 ++ f3 ++ regBits rd ++ op

/-- I format, shift form: `funct7 shamt rs1 funct3 rd opcode`. -/
def encodeShift (f7 : BitVec 7) (shamt : Shamt) (rs1 : Reg) (f3 : BitVec 3) (rd : Reg) (op : BitVec 7) : Word :=
  f7 ++ shamt ++ regBits rs1 ++ f3 ++ regBits rd ++ op

/-- U format: `imm[31:12] rd opcode`. -/
def encodeU (imm : Word) (rd : Reg) (op : BitVec 7) : Word :=
  imm.extractLsb 31 12 ++ regBits rd ++ op

/-- J format: `off[20] off[10:1] off[11] off[19:12] rd opcode`. -/
def encodeJ (off : Word) (rd : Reg) (op : BitVec 7) : Word :=
  off.extractLsb 20 20 ++ off.extractLsb 10 1 ++ off.extractLsb 11 11 ++ off.extractLsb 19 12 ++ regBits rd ++ op

/-- The canonical word of an instruction (R69, R70); meant for a well-formed one, total on all. -/
def encode : Instr → Word
  | .addi rd rs1 imm => encodeI imm rs1 0b000#3 rd opcOpImm
  | .slti rd rs1 imm => encodeI imm rs1 0b010#3 rd opcOpImm
  | .sltiu rd rs1 imm => encodeI imm rs1 0b011#3 rd opcOpImm
  | .xori rd rs1 imm => encodeI imm rs1 0b100#3 rd opcOpImm
  | .ori rd rs1 imm => encodeI imm rs1 0b110#3 rd opcOpImm
  | .andi rd rs1 imm => encodeI imm rs1 0b111#3 rd opcOpImm
  | .slli rd rs1 shamt => encodeShift 0b0000000#7 shamt rs1 0b001#3 rd opcOpImm
  | .srli rd rs1 shamt => encodeShift 0b0000000#7 shamt rs1 0b101#3 rd opcOpImm
  | .srai rd rs1 shamt => encodeShift 0b0100000#7 shamt rs1 0b101#3 rd opcOpImm
  | .lui rd imm => encodeU imm rd opcLui
  | .auipc rd imm => encodeU imm rd opcAuipc
  | .add rd rs1 rs2 => encodeR 0b0000000#7 rs2 rs1 0b000#3 rd opcOp
  | .sub rd rs1 rs2 => encodeR 0b0100000#7 rs2 rs1 0b000#3 rd opcOp
  | .sll rd rs1 rs2 => encodeR 0b0000000#7 rs2 rs1 0b001#3 rd opcOp
  | .slt rd rs1 rs2 => encodeR 0b0000000#7 rs2 rs1 0b010#3 rd opcOp
  | .sltu rd rs1 rs2 => encodeR 0b0000000#7 rs2 rs1 0b011#3 rd opcOp
  | .xor rd rs1 rs2 => encodeR 0b0000000#7 rs2 rs1 0b100#3 rd opcOp
  | .srl rd rs1 rs2 => encodeR 0b0000000#7 rs2 rs1 0b101#3 rd opcOp
  | .sra rd rs1 rs2 => encodeR 0b0100000#7 rs2 rs1 0b101#3 rd opcOp
  | .or rd rs1 rs2 => encodeR 0b0000000#7 rs2 rs1 0b110#3 rd opcOp
  | .and rd rs1 rs2 => encodeR 0b0000000#7 rs2 rs1 0b111#3 rd opcOp
  | .jal rd off => encodeJ off rd opcJal
  | .jalr rd rs1 imm => encodeI imm rs1 0b000#3 rd opcJalr

/-! The opcode table's match and mask pairs: a word `w` is the instruction of a row when `w & mask = match` (R62). -/

/-- The `match` of an instruction's row. -/
def tableMatch : Instr → Word
  | .addi _ _ _ => 0x00000013#32
  | .slti _ _ _ => 0x00002013#32
  | .sltiu _ _ _ => 0x00003013#32
  | .xori _ _ _ => 0x00004013#32
  | .ori _ _ _ => 0x00006013#32
  | .andi _ _ _ => 0x00007013#32
  | .slli _ _ _ => 0x00001013#32
  | .srli _ _ _ => 0x00005013#32
  | .srai _ _ _ => 0x40005013#32
  | .lui _ _ => 0x00000037#32
  | .auipc _ _ => 0x00000017#32
  | .add _ _ _ => 0x00000033#32
  | .sub _ _ _ => 0x40000033#32
  | .sll _ _ _ => 0x00001033#32
  | .slt _ _ _ => 0x00002033#32
  | .sltu _ _ _ => 0x00003033#32
  | .xor _ _ _ => 0x00004033#32
  | .srl _ _ _ => 0x00005033#32
  | .sra _ _ _ => 0x40005033#32
  | .or _ _ _ => 0x00006033#32
  | .and _ _ _ => 0x00007033#32
  | .jal _ _ => 0x0000006F#32
  | .jalr _ _ _ => 0x00000067#32

/-- The `mask` of an instruction's row. -/
def tableMask : Instr → Word
  | .addi _ _ _ => 0x0000707F#32
  | .slti _ _ _ => 0x0000707F#32
  | .sltiu _ _ _ => 0x0000707F#32
  | .xori _ _ _ => 0x0000707F#32
  | .ori _ _ _ => 0x0000707F#32
  | .andi _ _ _ => 0x0000707F#32
  | .slli _ _ _ => 0x0000707F#32
  | .srli _ _ _ => 0x4000707F#32
  | .srai _ _ _ => 0x4000707F#32
  | .lui _ _ => 0x0000007F#32
  | .auipc _ _ => 0x0000007F#32
  | .add _ _ _ => 0x4000707F#32
  | .sub _ _ _ => 0x4000707F#32
  | .sll _ _ _ => 0x0000707F#32
  | .slt _ _ _ => 0x0000707F#32
  | .sltu _ _ _ => 0x0000707F#32
  | .xor _ _ _ => 0x0000707F#32
  | .srl _ _ _ => 0x4000707F#32
  | .sra _ _ _ => 0x4000707F#32
  | .or _ _ _ => 0x0000707F#32
  | .and _ _ _ => 0x0000707F#32
  | .jal _ _ => 0x0000007F#32
  | .jalr _ _ _ => 0x0000707F#32

/-- The four bytes of an instruction as they lie in memory, the lowest address first (R50). -/
def bytesOfWord (w : Word) : List Byte := [byteOfWord w 0, byteOfWord w 1, byteOfWord w 2, byteOfWord w 3]

/-- The word whose low `nbits` bits are those of `w` and whose other bits are zero. -/
def tableWord (nbits w : Nat) : Word := BitVec.ofNat 32 (w % 2 ^ nbits)

/-- The instruction the decoder reads from the opcode table's bits `w` of an `nbits`-bit row, laid out in bytes as the
hardware stores them. -/
def decodeTableWord (nbits w : Nat) : Option Instr :=
  match decodeBytes (bytesOfWord (tableWord nbits w)) with
  | .ok (i, _) => some i
  | .error _ => none

end Sys2Proof
end

