-- ==== Sys2Proof/Config.lean ====
section
/-! DEFINITION. What is fixed for this hardware (00_scope.md R4). The spec leaves no result, flag or register undefined, so there is no free value here. -/

namespace Sys2Proof

/-- `ILLEGAL_POLICY` (R4): what an unrecognised word does (R88). -/
inductive IllegalPolicy where
  /-- raise IllegalInstruction: the value this hardware takes -/
  | fault
  /-- advance the pc only: the reference's behaviour, kept as the parameter's other value -/
  | nop
  deriving DecidableEq, Repr

/-- `MEM_SIZE` (R4, R31): the store has the bytes 0 to `memSize - 1`. DESIGN CHOICE (safe): a constant, not an argument;
notes/assumptions/2.md. -/
abbrev Config.memSize : Nat := 65536

/-- `ILLEGAL_POLICY` of this hardware (R4, R88): `FAULT`. UNVERIFIED (safe): the spec's decision D3; notes/assumptions/3.md. -/
def Config.illegalPolicy : IllegalPolicy := .fault

/-- `START_PC` where the host supplies none (R4, R191). -/
def Config.defaultStartPc : Word := 0#32

end Sys2Proof
end

