-- ==== Sys2Proof/Machine/State.lean ====
section
/-! DEFINITION. The whole state of the machine (10_state.md R10 to R21), its reset (R22), and the reasons a step can stop. -/

namespace Sys2Proof.Machine

/-- The three errors of the source's taxonomy (60_exceptions.md R162). -/
inductive FaultCause where
  /-- code 1: a memory access beyond the store; raised by the fetch of a cycle (R161), answered to the loader or host by
  their own memory operations -/
  | outOfBounds
  /-- code 2: the fetched word is Unrecognised, under `ILLEGAL_POLICY = FAULT` (R163) -/
  | illegalInstruction
  /-- code 3: raised by no cycle of this hardware (R164) -/
  | unimplementedInstruction
  deriving DecidableEq, Repr

/-- The fault record's contents (R18): the cause, the faulting cycle's `cur_pc`, and its instruction word, absent where
the fetch itself faulted. -/
structure FaultRecord where
  cause : FaultCause
  fpc : Word
  finst : Option Word
  deriving DecidableEq, Repr

/-- The tagged outcome of a cycle (40_fetch_cycle.md R86). -/
inductive CycleOutcome where
  /-- `Continue`: the cycle committed -/
  | continued
  /-- `Halt`: yielded by no cycle of this hardware, kept in the type as R86 keeps it -/
  | halted
  /-- `Failed(reason)`: the cycle raised -/
  | failed (reason : FaultCause)
  deriving DecidableEq, Repr

/-- Memory as the list of its non-zero bytes by address; an address not listed reads 0x00, the reset contents (R20, R22).
The canonical form is `Memory.wf`. DESIGN CHOICE (safe): the list; notes/assumptions/21.md. -/
abbrev Memory := List Host.Cell

/-- The canonical form: addresses strictly rising, every address inside the store, no byte equal to what an unlisted
address reads as (0x00). -/
abbrev Memory.wf (m : Memory) : Prop :=
  m.Pairwise (fun c d => c.1 < d.1) ∧ ∀ c ∈ m, c.1 < Config.memSize ∧ c.2 ≠ 0#8

/-- Everything the spec gives the machine, and nothing else (R19, R21). -/
structure State where
  /-- x0 to x31 (R10); slot 0 is never read and stays 0, see `State.readReg` and `State.writeReg` (R11);
  DESIGN CHOICE (safe), notes/assumptions/4.md -/
  regs : Vector Word 32
  /-- the program counter, reached by no register index (R14) -/
  pc : Word
  /-- the halt flag, one bit, written only by the host between cycles (R17) -/
  halt : Bool
  /-- the fault record (R18) -/
  fault : Option FaultRecord
  /-- the byte store (R20) -/
  mem : Memory
  deriving DecidableEq, Repr

/-- The machine right after construction (R22, 70_reset_and_hazards.md R190): all zero, no halt, no fault. -/
def State.reset : State :=
  { regs := Vector.replicate 32 0#32
    pc := 0#32
    halt := false
    fault := none
    mem := [] }

/-- Why a step answers no next state. -/
inductive Fault where
  /-- The run is over: `fault` holds a record, so no cycle executes (R80, R166, R168). Raised by the cycle's own guard
  (Machine/Cycle.lean) before any fetch, never by an instruction. SAFE: it is the spec's own stop. -/
  | stopped (record : FaultRecord)
  deriving DecidableEq, Repr

/-- Why an instruction has no meaning in the model. -/
inductive Refusal where
  /-- The instruction's arm in `exec` has no meaning yet. Raised by nobody now, since every arm has its meaning. SAFE. -/
  | notModelled (mnemonic : String)
  deriving DecidableEq, Repr

/-- What a meaning, a cycle or a step answers. -/
abbrev Result := Host.Outcome State Fault Refusal

end Sys2Proof.Machine
end

