-- ==== Sys2Proof/Machine/Ops.lean ====
section
/-! DEFINITION. The named operations over memory (20_memory.md R33 to R37), registers (10_state.md R11, R12, R14), the commit of a cycle (40_fetch_cycle.md R83), and fault entry (60_exceptions.md R166). -/

namespace Sys2Proof.Machine

/-! ### Memory -/

/-- The byte a memory holds at an address; 0x00 where none is listed (R22, R40). -/
def getByte : Memory → Nat → Byte
  | [], _ => 0#8
  | c :: m, a => if c.1 = a then c.2 else getByte m a

/-- Store one byte, keeping the canonical form: a stored 0x00 is not listed. -/
def setByte : Memory → Nat → Byte → Memory
  | [], a, b => if b = 0#8 then [] else [(a, b)]
  | c :: m, a, b =>
    if a < c.1 then (if b = 0#8 then c :: m else (a, b) :: c :: m)
    else if a = c.1 then (if b = 0#8 then m else (a, b) :: m)
    else c :: setByte m a b

/-- `MemRead(addr, 1)` (R36), at the loader's and host's boundary. -/
def memReadByte (m : Memory) (addr : Word) : Except FaultCause Byte :=
  if addr.toNat ≥ Config.memSize then .error .outOfBounds else .ok (getByte m addr.toNat)

/-- `MemRead(addr, 4)` (R33), bounds checked in unbounded integers (R34); no alignment rule (R38). -/
def memReadWord (m : Memory) (addr : Word) : Except FaultCause Word :=
  if addr.toNat + 3 ≥ Config.memSize then .error .outOfBounds
  else .ok (wordOfBytes (getByte m addr.toNat) (getByte m (addr.toNat + 1)) (getByte m (addr.toNat + 2))
    (getByte m (addr.toNat + 3)))

/-- `MemWrite(addr, 1, v)` (R35). -/
def memWriteByte (m : Memory) (addr : Word) (v : Byte) : Except FaultCause Memory :=
  if addr.toNat ≥ Config.memSize then .error .outOfBounds else .ok (setByte m addr.toNat v)

/-- Four byte writes, lowest address first (R37). -/
def setWord (m : Memory) (a : Nat) (v : Word) : Memory :=
  setByte (setByte (setByte (setByte m a (byteOfWord v 0)) (a + 1) (byteOfWord v 1)) (a + 2) (byteOfWord v 2))
    (a + 3) (byteOfWord v 3)

/-- `MemWrite(addr, 4, v)`: all four bytes are checked before the first is stored, so a failing write stores nothing (R37).
UNVERIFIED (unsafe): the spec's decision D9; notes/assumptions/16.md. -/
def memWriteWord (m : Memory) (addr : Word) (v : Word) : Except FaultCause Memory :=
  if addr.toNat + 3 ≥ Config.memSize then .error .outOfBounds else .ok (setWord m addr.toNat v)

/-! ### Registers -/

/-- `read(index)`: index 0 always yields 0 (R11, R12). -/
def State.readReg (s : State) (r : Reg) : Word := if r = 0 then 0#32 else s.regs.get r

/-- `write(index, value)`: writes to index 0 are no-ops (R11, R12). -/
def State.writeReg (s : State) (r : Reg) (v : Word) : State :=
  if r = 0 then s else { s with regs := s.regs.set r v }

/-- `write_pc` (R14). -/
def State.setPc (s : State) (target : Word) : State := { s with pc := target }

/-- The default next address `cur_pc + 4`, modulo 2^32 (R82); also the link value of a jump (R150). UNVERIFIED (unsafe): the
spec's decision D15; notes/assumptions/15.md. -/
def State.nextPc (s : State) : Word := s.pc + 4#32

/-! ### The end of a cycle -/

/-- The commit of a cycle that raised nothing: the register write and the new pc together (R83, R85). The value and the
target are computed from the state at the start of the cycle, so every read comes before the write (R12). UNVERIFIED (unsafe): the spec's
decision D6; notes/assumptions/13.md. -/
def commit (rd : Reg) (v target : Word) (s : State) : Result :=
  .next ((s.writeReg rd v).setPc target)

/-- The commit of an unrecognised word under `ILLEGAL_POLICY = NOP`: the pc alone (R88). -/
def commitNop (s : State) : Result := .next (s.setPc s.nextPc)

/-- Fault entry (R166, R87): nothing of the cycle is committed, so the pc stays `cur_pc`; only the record is written. No
vector, no saved-pc register and no mode exist. There is NO RETURN from a fault (R168): the record is cleared only by reset
(`coreReset`). UNVERIFIED (unsafe): the spec's decisions D11 and D13; notes/assumptions/14.md. -/
def State.takeFault (s : State) (cause : FaultCause) (finst : Option Word) : State :=
  { s with fault := some { cause := cause, fpc := s.pc, finst := finst } }

/-- The record's numeric code (R162). -/
def FaultCause.code : FaultCause → Nat
  | .outOfBounds => 1
  | .illegalInstruction => 2
  | .unimplementedInstruction => 3

/-- A reset during the life of a core (R190): the register file, `halt` and `fault` as at construction. Memory is constructed
separately and whether it is cleared is the host's choice (I15), so the memory after it is the host's argument. DESIGN CHOICE (safe): notes/assumptions/9.md. -/
def coreReset (mem : Memory) : State := { State.reset with mem := mem }

/-- The instruction fetch of a cycle (R81). -/
def fetch (s : State) : Except FaultCause Word := memReadWord s.mem s.pc

/-- The outcome of the cycle that ended in `t` (R86): `Failed` exactly when the cycle raised. -/
def outcomeOf (t : State) : CycleOutcome :=
  match t.fault with
  | none => .continued
  | some r => .failed r.cause

end Sys2Proof.Machine
end

