-- ==== Sys2Proof/Machine/Operands.lean ====
section
/-! DEFINITION. The operand forms: register and immediate (41_op_imm.md R100), register and register (43_op.md R133), the shift amounts (30_encoding.md R55, 43_op.md R131). Each form reads its operands, writes `x[rd]` once and advances the pc by 4. -/

namespace Sys2Proof.Machine

/-- The shift amount a register gives: its low five bits, the others ignored (R131). -/
def shamtOfReg (v : Word) : Shamt := v.extractLsb 4 0

/-- `destination = f(source-register-1, immediate)` (R100). -/
def opRegImm (f : Word → Word → Word) (rd rs1 : Reg) (imm : Word) (s : State) : Result :=
  commit rd (f (s.readReg rs1) imm) s.nextPc s

/-- The immediate shift form (R100, R55). -/
def opRegShamt (f : Word → Shamt → Word) (rd rs1 : Reg) (shamt : Shamt) (s : State) : Result :=
  commit rd (f (s.readReg rs1) shamt) s.nextPc s

/-- Both operands drawn from registers (R133). -/
def opRegReg (f : Word → Word → Word) (rd rs1 rs2 : Reg) (s : State) : Result :=
  commit rd (f (s.readReg rs1) (s.readReg rs2)) s.nextPc s

/-- The register shift form: the amount is the low five bits of the second source register (R131, R133). -/
def opRegShift (f : Word → Shamt → Word) (rd rs1 rs2 : Reg) (s : State) : Result :=
  commit rd (f (s.readReg rs1) (shamtOfReg (s.readReg rs2))) s.nextPc s

end Sys2Proof.Machine
end

