-- ==== Sys2Proof/Machine/Jump.lean ====
section
/-! DEFINITION. The jumps (44_jump.md R150 to R153): the link value is `cur_pc + 4`; no target is checked, for alignment or for bounds. -/

namespace Sys2Proof.Machine

/-- JAL's target: `cur_pc + off_J` modulo 2^32, the offset a byte count and not scaled (R151). -/
def jalTarget (offJ : Word) (s : State) : Word := aluAdd s.pc offJ

/-- JALR's target: `(x[rs1] + imm_I) & 0xFFFFFFFE` (R152). -/
def jalrTarget (rs1 : Reg) (immI : Word) (s : State) : Word := aluAnd (aluAdd (s.readReg rs1) immI) 0xFFFFFFFE#32

/-- JAL (R151): `x[rd] <- cur_pc + 4`, `pc <- cur_pc + off_J`. -/
def execJal (rd : Reg) (offJ : Word) (s : State) : Result := commit rd s.nextPc (jalTarget offJ s) s

/-- JALR (R152): the target uses `x[rs1]` as it was at the start of the cycle, then `x[rd] <- cur_pc + 4`.
UNVERIFIED (unsafe): the spec's decision D4; notes/assumptions/12.md. -/
def execJalr (rd rs1 : Reg) (immI : Word) (s : State) : Result := commit rd s.nextPc (jalrTarget rs1 immI s) s

end Sys2Proof.Machine
end

