-- ==== Sys2Proof/Machine/Op.lean ====
section
/-! DEFINITION. The register-register instructions (43_op.md R133 to R143). -/

namespace Sys2Proof.Machine

/-- ADD (R134): `x[rd] <- x[rs1] + x[rs2]`. -/
def execAdd (rd rs1 rs2 : Reg) (s : State) : Result := opRegReg aluAdd rd rs1 rs2 s

/-- SUB (R135): `x[rd] <- x[rs1] - x[rs2]`. -/
def execSub (rd rs1 rs2 : Reg) (s : State) : Result := opRegReg aluSub rd rs1 rs2 s

/-- SLL (R136): `x[rd] <- x[rs1] << x[rs2][4:0]`. -/
def execSll (rd rs1 rs2 : Reg) (s : State) : Result := opRegShift aluSll rd rs1 rs2 s

/-- SLT (R137): `x[rd] <- (if x[rs1] <s x[rs2] then 1 else 0)`. -/
def execSlt (rd rs1 rs2 : Reg) (s : State) : Result := opRegReg aluSlt rd rs1 rs2 s

/-- SLTU (R138): `x[rd] <- (if x[rs1] <u x[rs2] then 1 else 0)`. -/
def execSltu (rd rs1 rs2 : Reg) (s : State) : Result := opRegReg aluSltu rd rs1 rs2 s

/-- XOR (R139): `x[rd] <- x[rs1] ^ x[rs2]`. -/
def execXor (rd rs1 rs2 : Reg) (s : State) : Result := opRegReg aluXor rd rs1 rs2 s

/-- SRL (R140): `x[rd] <- x[rs1] >>u x[rs2][4:0]`. -/
def execSrl (rd rs1 rs2 : Reg) (s : State) : Result := opRegShift aluSrl rd rs1 rs2 s

/-- SRA (R141): `x[rd] <- x[rs1] >>s x[rs2][4:0]`. -/
def execSra (rd rs1 rs2 : Reg) (s : State) : Result := opRegShift aluSra rd rs1 rs2 s

/-- OR (R142): `x[rd] <- x[rs1] | x[rs2]`. -/
def execOr (rd rs1 rs2 : Reg) (s : State) : Result := opRegReg aluOr rd rs1 rs2 s

/-- AND (R143): `x[rd] <- x[rs1] & x[rs2]`. -/
def execAnd (rd rs1 rs2 : Reg) (s : State) : Result := opRegReg aluAnd rd rs1 rs2 s

end Sys2Proof.Machine
end

