-- ==== Sys2Proof/Machine/OpImm.lean ====
section
/-! DEFINITION. The register-immediate instructions (41_op_imm.md R100 to R109). -/

namespace Sys2Proof.Machine

/-- ADDI (R101): `x[rd] <- x[rs1] + imm_I`. -/
def execAddi (rd rs1 : Reg) (immI : Word) (s : State) : Result := opRegImm aluAdd rd rs1 immI s

/-- SLTI (R102): `x[rd] <- (if x[rs1] <s imm_I then 1 else 0)`. -/
def execSlti (rd rs1 : Reg) (immI : Word) (s : State) : Result := opRegImm aluSlt rd rs1 immI s

/-- SLTIU (R103): `x[rd] <- (if x[rs1] <u imm_I then 1 else 0)`. -/
def execSltiu (rd rs1 : Reg) (immI : Word) (s : State) : Result := opRegImm aluSltu rd rs1 immI s

/-- XORI (R104): `x[rd] <- x[rs1] ^ imm_I`. -/
def execXori (rd rs1 : Reg) (immI : Word) (s : State) : Result := opRegImm aluXor rd rs1 immI s

/-- ORI (R105): `x[rd] <- x[rs1] | imm_I`. -/
def execOri (rd rs1 : Reg) (immI : Word) (s : State) : Result := opRegImm aluOr rd rs1 immI s

/-- ANDI (R106): `x[rd] <- x[rs1] & imm_I`. -/
def execAndi (rd rs1 : Reg) (immI : Word) (s : State) : Result := opRegImm aluAnd rd rs1 immI s

/-- SLLI (R107): `x[rd] <- x[rs1] << shamt`. -/
def execSlli (rd rs1 : Reg) (shamt : Shamt) (s : State) : Result := opRegShamt aluSll rd rs1 shamt s

/-- SRLI (R108): `x[rd] <- x[rs1] >>u shamt`. -/
def execSrli (rd rs1 : Reg) (shamt : Shamt) (s : State) : Result := opRegShamt aluSrl rd rs1 shamt s

/-- SRAI (R109): `x[rd] <- x[rs1] >>s shamt`. -/
def execSrai (rd rs1 : Reg) (shamt : Shamt) (s : State) : Result := opRegShamt aluSra rd rs1 shamt s

end Sys2Proof.Machine
end

