-- ==== Sys2Proof/Machine/UpperImm.lean ====
section
/-! DEFINITION. The upper-immediate instructions (42_upper_imm.md R120 to R122). -/

namespace Sys2Proof.Machine

/-- LUI (R121): `x[rd] <- imm_U`. -/
def execLui (rd : Reg) (immU : Word) (s : State) : Result := commit rd immU s.nextPc s

/-- AUIPC (R122): `x[rd] <- cur_pc + imm_U`, the address of the AUIPC itself. -/
def execAuipc (rd : Reg) (immU : Word) (s : State) : Result := commit rd (aluAdd s.pc immU) s.nextPc s

end Sys2Proof.Machine
end

