-- ==== Sys2Proof/Machine/Dispatch.lean ====
section
/-! DEFINITION. One arm per constructor of Instr, each a direct call of the instruction's own meaning. -/

namespace Sys2Proof.Machine

def exec (i : Instr) (s : State) : Host.Outcome State Fault Refusal :=
  match i with
  | .addi rd rs1 immI => Sys2Proof.Machine.execAddi rd rs1 immI s
  | .slti rd rs1 immI => Sys2Proof.Machine.execSlti rd rs1 immI s
  | .sltiu rd rs1 immI => Sys2Proof.Machine.execSltiu rd rs1 immI s
  | .xori rd rs1 immI => Sys2Proof.Machine.execXori rd rs1 immI s
  | .ori rd rs1 immI => Sys2Proof.Machine.execOri rd rs1 immI s
  | .andi rd rs1 immI => Sys2Proof.Machine.execAndi rd rs1 immI s
  | .slli rd rs1 shamt => Sys2Proof.Machine.execSlli rd rs1 shamt s
  | .srli rd rs1 shamt => Sys2Proof.Machine.execSrli rd rs1 shamt s
  | .srai rd rs1 shamt => Sys2Proof.Machine.execSrai rd rs1 shamt s
  | .lui rd immU => Sys2Proof.Machine.execLui rd immU s
  | .auipc rd immU => Sys2Proof.Machine.execAuipc rd immU s
  | .add rd rs1 rs2 => Sys2Proof.Machine.execAdd rd rs1 rs2 s
  | .sub rd rs1 rs2 => Sys2Proof.Machine.execSub rd rs1 rs2 s
  | .sll rd rs1 rs2 => Sys2Proof.Machine.execSll rd rs1 rs2 s
  | .slt rd rs1 rs2 => Sys2Proof.Machine.execSlt rd rs1 rs2 s
  | .sltu rd rs1 rs2 => Sys2Proof.Machine.execSltu rd rs1 rs2 s
  | .xor rd rs1 rs2 => Sys2Proof.Machine.execXor rd rs1 rs2 s
  | .srl rd rs1 rs2 => Sys2Proof.Machine.execSrl rd rs1 rs2 s
  | .sra rd rs1 rs2 => Sys2Proof.Machine.execSra rd rs1 rs2 s
  | .or rd rs1 rs2 => Sys2Proof.Machine.execOr rd rs1 rs2 s
  | .and rd rs1 rs2 => Sys2Proof.Machine.execAnd rd rs1 rs2 s
  | .jal rd offJ => Sys2Proof.Machine.execJal rd offJ s
  | .jalr rd rs1 immI => Sys2Proof.Machine.execJalr rd rs1 immI s

end Sys2Proof.Machine
end

