-- ==== Sys2Proof/Machine/Cycle.lean ====
section
/-! DEFINITION. The cycle (40_fetch_cycle.md R80 to R89): guard, fetch, decode, execute or raise. -/

namespace Sys2Proof.Machine

/-- What an unrecognised word does under each `ILLEGAL_POLICY` (R88, R163). -/
def unrecognised (p : IllegalPolicy) (w : Word) (s : State) : Result :=
  match p with
  | .fault => .next (s.takeFault .illegalInstruction (some w))
  | .nop => commitNop s

/-- Decode and execute a fetched word (R83, R85). -/
def runWord (p : IllegalPolicy) (w : Word) (s : State) : Result :=
  match decode w with
  | .ok i => exec i s
  | .error _ => unrecognised p w s

/-- The whole cycle of R85. It may begin only when `fault = None` (R80); otherwise the run is over and no cycle executes.
A cycle that raises answers the state after fault entry, with its record written. DESIGN CHOICE (safe): the stop is the
model's own way to answer a step that the spec does not execute; notes/assumptions/1.md. -/
def cycleUnder (p : IllegalPolicy) (s : State) : Result :=
  match s.fault with
  | some r => .fault (.stopped r)
  | none =>
    match fetch s with
    | .error c => .next (s.takeFault c none)
    | .ok w => runWord p w s

/-- The cycle of this hardware, under its own `ILLEGAL_POLICY` (R4). -/
def cycle (s : State) : Result := cycleUnder Config.illegalPolicy s

end Sys2Proof.Machine
end

