-- ==== Sys2Proof/Machine/Run.lean ====
section
/-! DEFINITION. The boundary to the host and loader (70_reset_and_hazards.md R193 to R196, 20_memory.md R39) and the two run modes (40_fetch_cycle.md R90, R91). They act between cycles only (R93). -/

namespace Sys2Proof.Machine

/-- The loader or host writes a word: an out-of-bounds write fails, stores nothing and does not set `fault` (R194, R162). -/
def loadWord (addr v : Word) (s : State) : Except FaultCause State :=
  match memWriteWord s.mem addr v with
  | .ok m => .ok { s with mem := m }
  | .error c => .error c

/-- The loader or host writes a byte (R194). -/
def loadByte (addr : Word) (v : Byte) (s : State) : Except FaultCause State :=
  match memWriteByte s.mem addr v with
  | .ok m => .ok { s with mem := m }
  | .error c => .error c

/-- The loader writes words at consecutive addresses, four bytes apart, each by the single write of R194. DESIGN CHOICE (safe):
R194 does not say what a failed load of several words leaves; the model stops at the first failing write and answers its error
with no state; notes/assumptions/23.md. -/
def loadProgram (addr : Word) : List Word → State → Except FaultCause State
  | [], s => .ok s
  | w :: ws, s =>
    match loadWord addr w s with
    | .ok s' => loadProgram (addr + 4#32) ws s'
    | .error c => .error c

/-- One seed: an ordinary register write; a seed aimed at x0 leaves x0 = 0 (R193). UNVERIFIED (safe):
the spec's decision D20; notes/assumptions/19.md. -/
def seedReg (s : State) (seed : Reg × Word) : State := s.writeReg seed.1 seed.2

/-- `SEED` (R4, R193). -/
def seedRegs (seeds : List (Reg × Word)) (s : State) : State := seeds.foldl seedReg s

/-- The host writes the halt flag, between cycles (R17). UNVERIFIED (unsafe): the spec's decision D14; notes/assumptions/17.md. -/
def hostWriteHalt (b : Bool) (s : State) : State := { s with halt := b }

/-- The host starts a run: `pc = START_PC` (R90, R91, R195). -/
def startRun (startPc : Word) (s : State) : State := s.setPc startPc

/-- What a run leaves (R94): the whole state, and the outcomes of its cycles in order (R86). -/
structure RunResult where
  final : State
  outcomes : List CycleOutcome
  deriving DecidableEq, Repr

/-- Put an earlier cycle's outcome in front of a run's result. -/
def RunResult.after (o : CycleOutcome) (r : RunResult) : RunResult := { r with outcomes := o :: r.outcomes }

/-- Bounded mode from the current pc (R90): cycles until `n` have yielded `Continue` or one has yielded `Failed`. The halt
flag is not consulted. UNVERIFIED (safe): stopping early is the spec's decision D23; notes/assumptions/20.md. -/
def runBoundedUnder (p : IllegalPolicy) : Nat → State → RunResult
  | 0, s => ⟨s, []⟩
  | n + 1, s =>
    match cycleUnder p s with
    | .next t =>
      match outcomeOf t with
      | .continued => (runBoundedUnder p n t).after .continued
      | o => ⟨t, [o]⟩
    | .fault _ => ⟨s, []⟩
    | .refused _ => ⟨s, []⟩

/-- Bounded mode of this hardware: exactly `n` cycles from a given start address (R90). -/
def runBounded (startPc : Word) (n : Nat) (s : State) : RunResult :=
  runBoundedUnder Config.illegalPolicy n (startRun startPc s)

/-- Whether an unbounded run has stopped, or its schedule has been used up with the run still going. -/
inductive RunStatus where
  /-- the loop found `halt = 1` or `fault ≠ None` and stopped -/
  | ended
  /-- the loop had not stopped when the given schedule ended -/
  | going
  deriving DecidableEq, Repr

/-- The host's move before a loop test: set `halt`, or nothing (R93). UNVERIFIED (unsafe): no other move exists, the spec's
decision D22; notes/assumptions/18.md. -/
def hostMove (setsHalt : Bool) (s : State) : State := if setsHalt then hostWriteHalt true s else s

/-- Unbounded mode from the current pc (R91). Each entry of the schedule says whether the host sets `halt` before that loop
test; the test performs a cycle only if `halt = 0` and `fault = None`. DESIGN CHOICE (safe): the run is followed for as many
loop tests as the schedule has; notes/assumptions/8.md. -/
def runUnboundedUnder (p : IllegalPolicy) : List Bool → State → RunStatus × RunResult
  | [], s => (.going, ⟨s, []⟩)
  | h :: hs, s =>
    let s := hostMove h s
    if s.halt then (.ended, ⟨s, []⟩)
    else
      match cycleUnder p s with
      | .next t =>
        let r := runUnboundedUnder p hs t
        (r.1, r.2.after (outcomeOf t))
      | .fault _ => (.ended, ⟨s, []⟩)
      | .refused _ => (.ended, ⟨s, []⟩)

/-- Unbounded mode of this hardware from a given start address (R91). -/
def runUnbounded (startPc : Word) (schedule : List Bool) (s : State) : RunStatus × RunResult :=
  runUnboundedUnder Config.illegalPolicy schedule (startRun startPc s)

end Sys2Proof.Machine
end

