-- ==== Sys2Proof/Machine/Step.lean ====
section
/-! DEFINITION. One step is one cycle (00_scope.md R8). -/

namespace Sys2Proof.Machine

/-- One cycle of this hardware. -/
def step (s : State) : Host.Outcome State Fault Refusal := cycle s

/-- The instruction with the opcode table's bits `w` written by the loader where the next cycle fetches (R194, R81); a pc
whose four bytes lie outside the store leaves the state as it is, since the loader's write fails there (R37). DEDUCED (safe): notes/assumptions/11.md. -/
def State.withFetchWord (s : State) (nbits w : Nat) : State :=
  match loadWord s.pc (tableWord nbits w) s with
  | .ok s' => s'
  | .error _ => s

end Sys2Proof.Machine
end

