-- ==== Sys2Proof/Machine/Trace.lean ====
section
/-! DEFINITION. The tracer tap (40_fetch_cycle.md R92): what an observer sees of a cycle. Purely observational: nothing of the machine reads it. -/

namespace Sys2Proof.Machine

/-- The decoded mnemonic (00_scope.md R2). -/
def mnemonicOf : Instr → String
  | .addi _ _ _ => "ADDI"
  | .slti _ _ _ => "SLTI"
  | .sltiu _ _ _ => "SLTIU"
  | .xori _ _ _ => "XORI"
  | .ori _ _ _ => "ORI"
  | .andi _ _ _ => "ANDI"
  | .slli _ _ _ => "SLLI"
  | .srli _ _ _ => "SRLI"
  | .srai _ _ _ => "SRAI"
  | .lui _ _ => "LUI"
  | .auipc _ _ => "AUIPC"
  | .add _ _ _ => "ADD"
  | .sub _ _ _ => "SUB"
  | .sll _ _ _ => "SLL"
  | .slt _ _ _ => "SLT"
  | .sltu _ _ _ => "SLTU"
  | .xor _ _ _ => "XOR"
  | .srl _ _ _ => "SRL"
  | .sra _ _ _ => "SRA"
  | .or _ _ _ => "OR"
  | .and _ _ _ => "AND"
  | .jal _ _ => "JAL"
  | .jalr _ _ _ => "JALR"

/-- What the tracer is given, once per decoded instruction (R92). DESIGN CHOICE (safe): its shape; notes/assumptions/10.md. -/
structure TraceRecord where
  curPc : Word
  inst : Word
  mnemonic : String
  instr : Instr
  /-- the values of the registers the instruction reads, `rs1` first -/
  operands : List Word
  /-- what `x[rd]` holds after the cycle (0 for x0) -/
  result : Word
  deriving DecidableEq, Repr

/-- The record of the cycle from `s`; none where the cycle decodes no instruction (R92). -/
def traceOf (s : State) : Option TraceRecord :=
  match s.fault with
  | some _ => none
  | none =>
    match fetch s with
    | .error _ => none
    | .ok w =>
      match decode w with
      | .error _ => none
      | .ok i =>
        match exec i s with
        | .next t => some { curPc := s.pc, inst := w, mnemonic := mnemonicOf i, instr := i,
                            operands := i.sources.map s.readReg, result := t.readReg i.rd }
        | .fault _ => none
        | .refused _ => none

end Sys2Proof.Machine
end

