-- ==== Sys2Proof/Safety.lean ====
section
/-! DEFINITION. The terms claims are made in: what an instruction's completion is, the invariant of the machine, a run without fault. -/

namespace Sys2Proof.Machine

/-- `i` completes at `s`: exec answers a next state in which `x[rd]` holds `v` (unless rd is 0, which discards the write),
the pc is `target`, and everything else is as it was: every other general register, the halt flag, the fault record, and
every byte of memory (an instruction stores nothing, 20_memory.md R30). -/
def CommitsTo (i : Instr) (s : State) (rd : Reg) (v target : Word) : Prop :=
  ∃ t, exec i s = .next t ∧
    (∀ r, t.readReg r = if r = rd ∧ r ≠ 0 then v else s.readReg r) ∧
    t.pc = target ∧ t.halt = s.halt ∧ t.fault = s.fault ∧
    ∀ a, memReadByte t.mem a = memReadByte s.mem a

/-- A row of the opcode table (30_encoding.md R62): every word `w` with `w & mask = mtch` is the instruction `f w`, and its
operands are in the ranges of R70. -/
def DecodesRow (mask mtch : Word) (f : Word → Instr) : Prop :=
  ∀ w : Word, w &&& mask = mtch → decode w = .ok (f w) ∧ (f w).wf = true

/-- A fault record tells the truth about the state it stands in (60_exceptions.md R161, R163, R166): the pc is still that of
the faulting cycle, and its fetch is out of bounds, or fetches the recorded, unrecognised word. -/
def FaultTrue (s : State) : Prop :=
  ∀ r, s.fault = some r →
    r.fpc = s.pc ∧
    ((r.cause = .outOfBounds ∧ r.finst = none ∧ s.pc.toNat + 3 ≥ Config.memSize) ∨
     (r.cause = .illegalInstruction ∧
       ∃ w e, r.finst = some w ∧ memReadWord s.mem s.pc = .ok w ∧ decode w = .error e))

/-- The invariant every step keeps: memory in its canonical form, register slot 0 zero (10_state.md R11), and a truthful
fault record. -/
def State.Inv (s : State) : Prop := s.mem.wf ∧ s.regs.get 0 = 0#32 ∧ FaultTrue s

/-- `n` cycles from `s` that all commit, ending in `t`. -/
def RunsCleanly (n : Nat) (s t : State) : Prop := core.run n s = .next t ∧ t.fault = none

/-- Apply a change to the next state of an outcome. -/
def mapNext (f : State → State) : Result → Result
  | .next t => .next (f t)
  | .fault r => .fault r
  | .refused r => .refused r

end Sys2Proof.Machine
end

