-- ==== Sys2Proof/Certificates/Slice0/Obligations.lean ====
section
/-! DEFINITION. The statements about the model, from the numbered rules of the spec. -/

section
open Sys2Proof Sys2Proof.Machine

/-- The reset table of R22. Derived: its rows for `halt` and `fault` are marked in R22 as the spec's own decisions (D14, D11). -/
def Obligations.ResetLeavesEverythingZero : Prop :=
  (∀ r, State.reset.readReg r = 0#32) ∧ State.reset.pc = 0#32 ∧ State.reset.halt = false ∧ State.reset.fault = none ∧
  ∀ a : Word, a.toNat < 65536 → memReadByte State.reset.mem a = .ok 0x00#8

/-- For every memory m and address a whose four bytes lie below 65536, memReadWord answers a word w, and for k = 0, 1, 2, 3 the byte read at a+k answers bits [8k+7:8k] of w. -/
def Obligations.WordReadIsItsFourBytes : Prop :=
  ∀ (m : Memory) (a : Word), a.toNat + 3 < 65536 →
    ∃ w, memReadWord m a = .ok w ∧
      ∀ k : Nat, k < 4 → memReadByte m (a + BitVec.ofNat 32 k) = .ok (w.extractLsb' (8 * k) 8)

/-- The bounds checks of R34 and R36. Derived: R34's no-wrap reading is the spec's decision D8, R36's byte read its decision D10. -/
def Obligations.ReadsAreBoundsCheckedWithoutWrap : Prop :=
  ∀ (m : Memory) (a : Word),
    (memReadWord m a = .error .outOfBounds ↔ a.toNat + 3 ≥ 65536) ∧
    (memReadByte m a = .error .outOfBounds ↔ a.toNat ≥ 65536) ∧
    (∀ c, memReadWord m a = .error c → c = .outOfBounds) ∧ (∀ c, memReadByte m a = .error c → c = .outOfBounds)

/-- For every canonical memory: memWriteByte at a >= 65536 answers OutOfBounds; otherwise it answers a memory that reads v at a and reads as before at every other address. -/
def Obligations.ByteWriteChangesOneByte : Prop :=
  ∀ (m : Memory) (a : Word) (v : Byte), m.wf →
    (a.toNat ≥ 65536 → memWriteByte m a v = .error .outOfBounds) ∧
    (a.toNat < 65536 → ∃ m', memWriteByte m a v = .ok m' ∧
      ∀ x, memReadByte m' x = if x = a then .ok v else memReadByte m x)

/-- R37. Derived: that a failing write stores nothing is the spec's decision D9. -/
def Obligations.WordWriteStoresFourBytesOrNothing : Prop :=
  ∀ (m : Memory) (a v : Word), m.wf →
    (a.toNat + 3 ≥ 65536 → memWriteWord m a v = .error .outOfBounds) ∧
    (a.toNat + 3 < 65536 → ∃ m', memWriteWord m a v = .ok m' ∧
      ∀ x : Word, memReadByte m' x =
        if a.toNat ≤ x.toNat ∧ x.toNat ≤ a.toNat + 3 then .ok (v.extractLsb' (8 * (x.toNat - a.toNat)) 8)
        else memReadByte m x)

/-- For every canonical memory, if memWriteWord m a v answers m2 then memReadWord m2 a answers v, and for k = 0 to 3 the byte read at a+k answers bits [8k+7:8k] of v; and the fetch of a state whose memory is m2 and whose pc is a answers v. -/
def Obligations.WordWriteReadsBackAtBothWidths : Prop :=
  ∀ (m m' : Memory) (a v : Word), m.wf → memWriteWord m a v = .ok m' →
    memReadWord m' a = .ok v ∧
    (∀ k : Nat, k < 4 → memReadByte m' (a + BitVec.ofNat 32 k) = .ok (v.extractLsb' (8 * k) 8)) ∧
    ∀ s : State, s.mem = m' → s.pc = a → fetch s = .ok v

/-- R194: a loader's word write in bounds changes memory alone, and out of bounds it answers OutOfBounds (of the failing write only that error is said). Derived: the bounds check without wrap is the spec's decision D8 (log entry 16), and the clause `t.mem.wf` is about the canonical form of memory, the model's own choice (log entry 21). -/
def Obligations.LoaderWordWriteSetsOnlyMemoryOrFails : Prop :=
  ∀ (s : State) (a v : Word), s.mem.wf →
    (a.toNat + 3 ≥ 65536 → loadWord a v s = .error .outOfBounds) ∧
    (a.toNat + 3 < 65536 → ∃ t, loadWord a v s = .ok t ∧ t.mem.wf ∧ memReadWord t.mem a = .ok v ∧
      t.regs = s.regs ∧ t.pc = s.pc ∧ t.halt = s.halt ∧ t.fault = s.fault)

/-- R11 and R12 for the accessors; R11, R15, R151 and R152 for an instruction whose rd is 0. Derived: the JALR clause proves the target of R152, which is the spec's decision D4 (log entry 12). -/
def Obligations.RegisterZeroIsHardwired : Prop :=
  (∀ s : State, s.readReg 0 = 0#32) ∧ (∀ (s : State) (v : Word), s.writeReg 0 v = s) ∧
  (∀ (s : State) (r x : Reg) (v : Word), r ≠ 0 → (s.writeReg r v).readReg x = if x = r then v else s.readReg x) ∧
  (∀ (i : Instr) (s : State), i.rd = 0 → ∃ t, exec i s = .next t ∧ (∀ r, t.readReg r = s.readReg r) ∧
    t.fault = s.fault ∧
    (i.isJump = false → t.pc = s.pc + 4#32) ∧
    (∀ off, i = .jal 0 off → t.pc = s.pc + off) ∧
    (∀ rs1 imm, i = .jalr 0 rs1 imm → t.pc = (s.readReg rs1 + imm) &&& 0xFFFFFFFE#32))

/-- R193. Derived: the treatment of a seed of x0 is the spec's decision D20. -/
def Obligations.SeedingWritesOnlyItsRegisters : Prop :=
  ∀ (seeds : List (Reg × Word)) (s : State),
    (seedRegs seeds s).readReg 0 = 0#32 ∧ (seedRegs seeds s).pc = s.pc ∧ (seedRegs seeds s).halt = s.halt ∧
    (seedRegs seeds s).fault = s.fault ∧ (seedRegs seeds s).mem = s.mem ∧
    (∀ r, r ∉ seeds.map Prod.fst → (seedRegs seeds s).readReg r = s.readReg r) ∧
    (∀ (later : List (Reg × Word)) (r : Reg) (v : Word), r ≠ 0 → r ∉ later.map Prod.fst →
      (seedRegs (seeds ++ (r, v) :: later) s).readReg r = v)

/-- For every word: opcode is bits [6:0], rd bits [11:7], funct3 bits [14:12], rs1 bits [19:15], rs2 and shamt bits [24:20], b30 bit 30; imm_I has bits [31:20] of the word in bits 11 to 0 and bit 31 of the word in bits 31 to 11, so it lies in -2048 to 2047; imm_U is the word with its low 12 bits zero. -/
def Obligations.FieldSlicesOfRIUFormats : Prop :=
  ∀ w : Word,
    (∀ k, k < 7 → (opcodeOf w).getLsbD k = w.getLsbD k) ∧
    (∀ k, k < 5 → (rdOf w).val.testBit k = w.getLsbD (7 + k)) ∧
    (∀ k, k < 3 → (funct3Of w).getLsbD k = w.getLsbD (12 + k)) ∧
    (∀ k, k < 5 → (rs1Of w).val.testBit k = w.getLsbD (15 + k)) ∧
    (∀ k, k < 5 → (rs2Of w).val.testBit k = w.getLsbD (20 + k)) ∧
    (∀ k, k < 5 → (shamtOf w).getLsbD k = w.getLsbD (20 + k)) ∧
    b30Of w = w.getLsbD 30 ∧
    (∀ k, k < 11 → (immIOf w).getLsbD k = w.getLsbD (20 + k)) ∧
    (∀ k, 11 ≤ k → k < 32 → (immIOf w).getLsbD k = w.getLsbD 31) ∧
    -2048 ≤ (immIOf w).toInt ∧ (immIOf w).toInt ≤ 2047 ∧
    immUOf w = w &&& 0xFFFFF000#32

/-- R57. Derived: R57 marks the word bit of each group as general knowledge (G13). -/
def Obligations.JumpOffsetAssembly : Prop :=
  ∀ w : Word,
    (offJOf w).getLsbD 0 = false ∧
    (∀ k, 1 ≤ k → k ≤ 10 → (offJOf w).getLsbD k = w.getLsbD (20 + k)) ∧
    (offJOf w).getLsbD 11 = w.getLsbD 20 ∧
    (∀ k, 12 ≤ k → k ≤ 19 → (offJOf w).getLsbD k = w.getLsbD k) ∧
    (∀ k, 20 ≤ k → k < 32 → (offJOf w).getLsbD k = w.getLsbD 31) ∧
    (offJOf w).toNat % 2 = 0 ∧ -1048576 ≤ (offJOf w).toInt ∧ (offJOf w).toInt ≤ 1048574

/-- For every word w and instruction i: if decode w answers i then w & mask = match for the mask and match of the row of i, and i is well-formed. -/
def Obligations.DecodedWordLiesInItsTableRow : Prop :=
  ∀ (w : Word) (i : Instr), decode w = .ok i → w &&& tableMask i = tableMatch i ∧ i.wf = true

/-- R66. Derived: the opcode values are general knowledge in the spec (G1, log entry 6), and refusing JALR's other funct3 values is its decision D5. -/
def Obligations.UnrecognisedExactlyOutsideTheMap : Prop :=
  (∀ w : Word, (∃ e, decode w = .error e) ↔
    (w.toNat % 128 ≠ 0b0010011 ∧ w.toNat % 128 ≠ 0b0110111 ∧ w.toNat % 128 ≠ 0b0010111 ∧ w.toNat % 128 ≠ 0b0110011 ∧
      w.toNat % 128 ≠ 0b1101111 ∧ w.toNat % 128 ≠ 0b1100111) ∨
    (w.toNat % 128 = 0b1100111 ∧ w.toNat / 4096 % 8 ≠ 0)) ∧
  (∃ e, decode 0x00000000#32 = .error e) ∧ (∃ e, decode 0xFFFFFFFF#32 = .error e) ∧
  ∀ w : Word, w.toNat % 4 ≠ 3 → ∃ e, decode w = .error e

/-- R63 and R64. Derived: that the unread bits are don't-care is the spec's decision D2 (log entry 7). -/
def Obligations.UnreadBitsChangeNothing : Prop :=
  ∀ w w' : Word,
    (w &&& 0x41FFFFFF#32 = w' &&& 0x41FFFFFF#32 → w &&& 0x7F#32 = 0x33#32 → decode w = decode w') ∧
    (w &&& 0x41FFFFFF#32 = w' &&& 0x41FFFFFF#32 → w &&& 0x707F#32 = 0x5013#32 → decode w = decode w') ∧
    (w &&& 0x01FFFFFF#32 = w' &&& 0x01FFFFFF#32 → w &&& 0x7F#32 = 0x33#32 → w &&& 0x7000#32 ≠ 0x0000#32 →
      w &&& 0x7000#32 ≠ 0x5000#32 → decode w = decode w') ∧
    (w &&& 0x01FFFFFF#32 = w' &&& 0x01FFFFFF#32 → w &&& 0x707F#32 = 0x1013#32 → decode w = decode w')

/-- The encodings of R51 with the canonical bits of R69 lose no bit of any operand of R70: decode after encode is the identity on well-formed instructions. -/
def Obligations.DecodeOfEncodeIsTheInstruction : Prop :=
  ∀ i : Instr, i.wf = true → decode (encode i) = .ok i

/-- R50 with R62: four bytes, the lowest address first, decode as their word. The last clause, that fewer than four bytes are refused as truncated, is no rule of the spec but the model's choice (log entry 22). -/
def Obligations.FourBytesDecodeAsTheirWord : Prop :=
  (∀ (w : Word) (rest : List Byte),
    (∀ i, decode w = .ok i → decodeBytes (bytesOfWord w ++ rest) = .ok (i, rest)) ∧
    (∀ e, decode w = .error e → decodeBytes (bytesOfWord w ++ rest) = .error e)) ∧
  (∀ bs : List Byte, bs.length < 4 → decodeBytes bs = .error .truncated)

/-- decode of 0x00500093, 0x41F2D313, 0xABCDE2B7, 0x00001297, 0x402081B3, 0xFF9FF0EF and 0x004280E7 answers ADDI x1,x0,5; SRAI x6,x5,31; LUI x5,0xABCDE; AUIPC x5,1; SUB x3,x1,x2; JAL x1,-8 and JALR x1,x5,4. -/
def Obligations.SampleWordsOfEveryFamilyDecode : Prop :=
  decode 0x00500093#32 = .ok (.addi 1 0 5#32) ∧ decode 0x41F2D313#32 = .ok (.srai 6 5 31#5) ∧
  decode 0xABCDE2B7#32 = .ok (.lui 5 0xABCDE000#32) ∧ decode 0x00001297#32 = .ok (.auipc 5 0x00001000#32) ∧
  decode 0x402081B3#32 = .ok (.sub 3 1 2) ∧ decode 0xFF9FF0EF#32 = .ok (.jal 1 0xFFFFFFF8#32) ∧
  decode 0x004280E7#32 = .ok (.jalr 1 5 4#32)

/-- R101: ADDI. The numbers of the encoding are those the rule states (log entry 6). -/
def Obligations.AddiAddsImmediateModulo : Prop :=
  DecodesRow 0x0000707F#32 0x00000013#32 (fun w => .addi (rdOf w) (rs1Of w) (immIOf w)) ∧
  (∀ (rd rs1 : Reg) (imm : Word) (s : State), CommitsTo (.addi rd rs1 imm) s rd
    (BitVec.ofNat 32 ((s.readReg rs1).toNat + imm.toNat)) (s.pc + 4#32)) ∧
  decode 0x00A08113#32 = .ok (.addi 2 1 10#32) ∧
  decode 0xFFF30293#32 = .ok (.addi 5 6 0xFFFFFFFF#32)

/-- R102: SLTI. The numbers of the encoding are those the rule states (log entry 6). -/
def Obligations.SltiComparesSigned : Prop :=
  DecodesRow 0x0000707F#32 0x00002013#32 (fun w => .slti (rdOf w) (rs1Of w) (immIOf w)) ∧
  (∀ (rd rs1 : Reg) (imm : Word) (s : State), CommitsTo (.slti rd rs1 imm) s rd
    (if (s.readReg rs1).toInt < imm.toInt then 0x00000001#32 else 0x00000000#32) (s.pc + 4#32)) ∧
  decode 0xFFF32293#32 = .ok (.slti 5 6 0xFFFFFFFF#32)

/-- R103: SLTIU. The numbers of the encoding are those the rule states (log entry 6). Derived: R103 marks the sign extension before the unsigned comparison as derived from R54. -/
def Obligations.SltiuComparesUnsigned : Prop :=
  DecodesRow 0x0000707F#32 0x00003013#32 (fun w => .sltiu (rdOf w) (rs1Of w) (immIOf w)) ∧
  (∀ (rd rs1 : Reg) (imm : Word) (s : State), CommitsTo (.sltiu rd rs1 imm) s rd
    (if (s.readReg rs1).toNat < imm.toNat then 0x00000001#32 else 0x00000000#32) (s.pc + 4#32)) ∧
  decode 0x00133293#32 = .ok (.sltiu 5 6 1#32)

/-- R104: XORI. The numbers of the encoding are those the rule states (log entry 6). -/
def Obligations.XoriIsBitwiseExclusiveOr : Prop :=
  DecodesRow 0x0000707F#32 0x00004013#32 (fun w => .xori (rdOf w) (rs1Of w) (immIOf w)) ∧
  (∀ (rd rs1 : Reg) (imm : Word) (s : State), ∃ v, CommitsTo (.xori rd rs1 imm) s rd v (s.pc + 4#32) ∧
    ∀ k, k < 32 → v.getLsbD k = xor ((s.readReg rs1).getLsbD k) (imm.getLsbD k)) ∧
  decode 0xFFF34293#32 = .ok (.xori 5 6 0xFFFFFFFF#32) ∧
  decode 0x55534293#32 = .ok (.xori 5 6 0x555#32)

/-- R105: ORI. The numbers of the encoding are those the rule states (log entry 6). -/
def Obligations.OriIsBitwiseOr : Prop :=
  DecodesRow 0x0000707F#32 0x00006013#32 (fun w => .ori (rdOf w) (rs1Of w) (immIOf w)) ∧
  (∀ (rd rs1 : Reg) (imm : Word) (s : State), ∃ v, CommitsTo (.ori rd rs1 imm) s rd v (s.pc + 4#32) ∧
    ∀ k, k < 32 → v.getLsbD k = ((s.readReg rs1).getLsbD k || imm.getLsbD k)) ∧
  decode 0x0F036293#32 = .ok (.ori 5 6 0xF0#32)

/-- R106: ANDI. The numbers of the encoding are those the rule states (log entry 6). -/
def Obligations.AndiIsBitwiseAnd : Prop :=
  DecodesRow 0x0000707F#32 0x00007013#32 (fun w => .andi (rdOf w) (rs1Of w) (immIOf w)) ∧
  (∀ (rd rs1 : Reg) (imm : Word) (s : State), ∃ v, CommitsTo (.andi rd rs1 imm) s rd v (s.pc + 4#32) ∧
    ∀ k, k < 32 → v.getLsbD k = ((s.readReg rs1).getLsbD k && imm.getLsbD k)) ∧
  decode 0x0FF37293#32 = .ok (.andi 5 6 0xFF#32)

/-- R107: SLLI. The numbers of the encoding are those the rule states (log entry 6). -/
def Obligations.SlliShiftsLeftByFiveBits : Prop :=
  DecodesRow 0x0000707F#32 0x00001013#32 (fun w => .slli (rdOf w) (rs1Of w) (shamtOf w)) ∧
  (∀ (rd rs1 : Reg) (sh : Shamt) (s : State), CommitsTo (.slli rd rs1 sh) s rd
    (BitVec.ofNat 32 ((s.readReg rs1).toNat * 2 ^ sh.toNat)) (s.pc + 4#32)) ∧
  (∀ (rd rs1 : Reg) (sh : Shamt), (encode (.slli rd rs1 sh)).toNat / 2 ^ 25 = 0b0000000) ∧
  decode 0x00331293#32 = .ok (.slli 5 6 3#5)

/-- R108: SRLI. The numbers of the encoding are those the rule states (log entry 6). -/
def Obligations.SrliShiftsRightLogically : Prop :=
  DecodesRow 0x4000707F#32 0x00005013#32 (fun w => .srli (rdOf w) (rs1Of w) (shamtOf w)) ∧
  (∀ (rd rs1 : Reg) (sh : Shamt) (s : State), CommitsTo (.srli rd rs1 sh) s rd
    (BitVec.ofNat 32 ((s.readReg rs1).toNat / 2 ^ sh.toNat)) (s.pc + 4#32)) ∧
  (∀ (rd rs1 : Reg) (sh : Shamt), (encode (.srli rd rs1 sh)).toNat / 2 ^ 25 = 0b0000000) ∧
  decode 0x00335293#32 = .ok (.srli 5 6 3#5)

/-- R109: SRAI. The numbers of the encoding are those the rule states (log entry 6). Derived: R109 marks the floor form as derived from R131. -/
def Obligations.SraiShiftsRightKeepingTheSign : Prop :=
  DecodesRow 0x4000707F#32 0x40005013#32 (fun w => .srai (rdOf w) (rs1Of w) (shamtOf w)) ∧
  (∀ (rd rs1 : Reg) (sh : Shamt) (s : State), CommitsTo (.srai rd rs1 sh) s rd
    (BitVec.ofInt 32 ((s.readReg rs1).toInt / 2 ^ sh.toNat)) (s.pc + 4#32)) ∧
  (∀ (rd rs1 : Reg) (sh : Shamt), (encode (.srai rd rs1 sh)).toNat / 2 ^ 25 = 0b0100000) ∧
  decode 0x40335293#32 = .ok (.srai 5 6 3#5)

/-- R121: LUI. The numbers of the encoding are those the rule states (log entry 6). -/
def Obligations.LuiPlacesTheUpperImmediate : Prop :=
  DecodesRow 0x0000007F#32 0x00000037#32 (fun w => .lui (rdOf w) (immUOf w)) ∧
  (∀ (rd : Reg) (imm : Word) (s : State), CommitsTo (.lui rd imm) s rd
    imm (s.pc + 4#32)) ∧
  (∀ w : Word, (immUOf w).toNat = w.toNat / 2 ^ 12 * 2 ^ 12) ∧
  decode 0xABCDE2B7#32 = .ok (.lui 5 0xABCDE000#32)

/-- R122: AUIPC. The numbers of the encoding are those the rule states (log entry 6). Derived: R122 marks the reading of I as imm_U as derived from R56. -/
def Obligations.AuipcAddsToItsOwnAddress : Prop :=
  DecodesRow 0x0000007F#32 0x00000017#32 (fun w => .auipc (rdOf w) (immUOf w)) ∧
  (∀ (rd : Reg) (imm : Word) (s : State), CommitsTo (.auipc rd imm) s rd
    (BitVec.ofNat 32 (s.pc.toNat + imm.toNat)) (s.pc + 4#32)) ∧
  decode 0x00001297#32 = .ok (.auipc 5 0x00001000#32) ∧
  decode 0x12345397#32 = .ok (.auipc 7 0x12345000#32)

/-- R134: ADD. The numbers of the encoding are those the rule states (log entry 6). -/
def Obligations.AddAddsModulo : Prop :=
  DecodesRow 0x4000707F#32 0x00000033#32 (fun w => .add (rdOf w) (rs1Of w) (rs2Of w)) ∧
  (∀ (rd rs1 rs2 : Reg) (s : State), CommitsTo (.add rd rs1 rs2) s rd
    (BitVec.ofNat 32 ((s.readReg rs1).toNat + (s.readReg rs2).toNat)) (s.pc + 4#32)) ∧
  decode 0x002081B3#32 = .ok (.add 3 1 2) ∧
  decode 0x001080B3#32 = .ok (.add 1 1 1) ∧
  decode 0x00208033#32 = .ok (.add 0 1 2)

/-- R135: SUB. The numbers of the encoding are those the rule states (log entry 6). -/
def Obligations.SubSubtractsModulo : Prop :=
  DecodesRow 0x4000707F#32 0x40000033#32 (fun w => .sub (rdOf w) (rs1Of w) (rs2Of w)) ∧
  (∀ (rd rs1 rs2 : Reg) (s : State), CommitsTo (.sub rd rs1 rs2) s rd
    (BitVec.ofInt 32 (((s.readReg rs1).toNat : Int) - ((s.readReg rs2).toNat : Int))) (s.pc + 4#32)) ∧
  decode 0x402081B3#32 = .ok (.sub 3 1 2) ∧
  decode 0x401080B3#32 = .ok (.sub 1 1 1)

/-- R136: SLL. The numbers of the encoding are those the rule states (log entry 6). -/
def Obligations.SllShiftsLeftByLowFiveBits : Prop :=
  DecodesRow 0x0000707F#32 0x00001033#32 (fun w => .sll (rdOf w) (rs1Of w) (rs2Of w)) ∧
  (∀ (rd rs1 rs2 : Reg) (s : State), CommitsTo (.sll rd rs1 rs2) s rd
    (BitVec.ofNat 32 ((s.readReg rs1).toNat * 2 ^ ((s.readReg rs2).toNat % 32))) (s.pc + 4#32)) ∧
  decode 0x002091B3#32 = .ok (.sll 3 1 2)

/-- R137: SLT. The numbers of the encoding are those the rule states (log entry 6). -/
def Obligations.SltComparesSigned : Prop :=
  DecodesRow 0x0000707F#32 0x00002033#32 (fun w => .slt (rdOf w) (rs1Of w) (rs2Of w)) ∧
  (∀ (rd rs1 rs2 : Reg) (s : State), CommitsTo (.slt rd rs1 rs2) s rd
    (if (s.readReg rs1).toInt < (s.readReg rs2).toInt then 0x00000001#32 else 0x00000000#32) (s.pc + 4#32)) ∧
  decode 0x0020A1B3#32 = .ok (.slt 3 1 2)

/-- R138: SLTU. The numbers of the encoding are those the rule states (log entry 6). -/
def Obligations.SltuComparesUnsigned : Prop :=
  DecodesRow 0x0000707F#32 0x00003033#32 (fun w => .sltu (rdOf w) (rs1Of w) (rs2Of w)) ∧
  (∀ (rd rs1 rs2 : Reg) (s : State), CommitsTo (.sltu rd rs1 rs2) s rd
    (if (s.readReg rs1).toNat < (s.readReg rs2).toNat then 0x00000001#32 else 0x00000000#32) (s.pc + 4#32)) ∧
  decode 0x0020B1B3#32 = .ok (.sltu 3 1 2)

/-- R139: XOR. The numbers of the encoding are those the rule states (log entry 6). -/
def Obligations.XorIsBitwiseExclusiveOr : Prop :=
  DecodesRow 0x0000707F#32 0x00004033#32 (fun w => .xor (rdOf w) (rs1Of w) (rs2Of w)) ∧
  (∀ (rd rs1 rs2 : Reg) (s : State), ∃ v, CommitsTo (.xor rd rs1 rs2) s rd v (s.pc + 4#32) ∧
    ∀ k, k < 32 → v.getLsbD k = xor ((s.readReg rs1).getLsbD k) ((s.readReg rs2).getLsbD k)) ∧
  decode 0x0020C1B3#32 = .ok (.xor 3 1 2)

/-- R140: SRL. The numbers of the encoding are those the rule states (log entry 6). -/
def Obligations.SrlShiftsRightLogically : Prop :=
  DecodesRow 0x4000707F#32 0x00005033#32 (fun w => .srl (rdOf w) (rs1Of w) (rs2Of w)) ∧
  (∀ (rd rs1 rs2 : Reg) (s : State), CommitsTo (.srl rd rs1 rs2) s rd
    (BitVec.ofNat 32 ((s.readReg rs1).toNat / 2 ^ ((s.readReg rs2).toNat % 32))) (s.pc + 4#32)) ∧
  decode 0x0020D1B3#32 = .ok (.srl 3 1 2)

/-- R141: SRA. The numbers of the encoding are those the rule states (log entry 6). -/
def Obligations.SraShiftsRightKeepingTheSign : Prop :=
  DecodesRow 0x4000707F#32 0x40005033#32 (fun w => .sra (rdOf w) (rs1Of w) (rs2Of w)) ∧
  (∀ (rd rs1 rs2 : Reg) (s : State), CommitsTo (.sra rd rs1 rs2) s rd
    (BitVec.ofInt 32 ((s.readReg rs1).toInt / 2 ^ ((s.readReg rs2).toNat % 32))) (s.pc + 4#32)) ∧
  decode 0x4020D1B3#32 = .ok (.sra 3 1 2)

/-- R142: OR. The numbers of the encoding are those the rule states (log entry 6). -/
def Obligations.OrIsBitwiseOr : Prop :=
  DecodesRow 0x0000707F#32 0x00006033#32 (fun w => .or (rdOf w) (rs1Of w) (rs2Of w)) ∧
  (∀ (rd rs1 rs2 : Reg) (s : State), ∃ v, CommitsTo (.or rd rs1 rs2) s rd v (s.pc + 4#32) ∧
    ∀ k, k < 32 → v.getLsbD k = ((s.readReg rs1).getLsbD k || (s.readReg rs2).getLsbD k)) ∧
  decode 0x0020E1B3#32 = .ok (.or 3 1 2)

/-- R143: AND. The numbers of the encoding are those the rule states (log entry 6). -/
def Obligations.AndIsBitwiseAnd : Prop :=
  DecodesRow 0x0000707F#32 0x00007033#32 (fun w => .and (rdOf w) (rs1Of w) (rs2Of w)) ∧
  (∀ (rd rs1 rs2 : Reg) (s : State), ∃ v, CommitsTo (.and rd rs1 rs2) s rd v (s.pc + 4#32) ∧
    ∀ k, k < 32 → v.getLsbD k = ((s.readReg rs1).getLsbD k && (s.readReg rs2).getLsbD k)) ∧
  decode 0x0020F1B3#32 = .ok (.and 3 1 2)

/-- R151: JAL. The numbers of the encoding are those the rule states (log entry 6). -/
def Obligations.JalLinksAndJumpsByByteOffset : Prop :=
  DecodesRow 0x0000007F#32 0x0000006F#32 (fun w => .jal (rdOf w) (offJOf w)) ∧
  (∀ (rd : Reg) (off : Word) (s : State), CommitsTo (.jal rd off) s rd
    (BitVec.ofNat 32 (s.pc.toNat + 4)) (BitVec.ofInt 32 ((s.pc.toNat : Int) + off.toInt))) ∧
  decode 0x010000EF#32 = .ok (.jal 1 16#32) ∧
  decode 0xFF9FF0EF#32 = .ok (.jal 1 0xFFFFFFF8#32) ∧
  decode 0x0000006F#32 = .ok (.jal 0 0#32)

/-- R152: JALR. The numbers of the encoding are those the rule states (log entry 6). Derived: R152's semantics and JALR's funct3 are the spec's decisions D4 and D5. -/
def Obligations.JalrLinksAndJumpsIndirectly : Prop :=
  DecodesRow 0x0000707F#32 0x00000067#32 (fun w => .jalr (rdOf w) (rs1Of w) (immIOf w)) ∧
  (∀ (rd rs1 : Reg) (imm : Word) (s : State), CommitsTo (.jalr rd rs1 imm) s rd
    (BitVec.ofNat 32 (s.pc.toNat + 4)) (BitVec.ofNat 32 (((s.readReg rs1).toNat + imm.toNat) / 2 * 2))) ∧
  decode 0x004280E7#32 = .ok (.jalr 1 5 4#32) ∧
  decode 0x00008067#32 = .ok (.jalr 0 1 0#32)

/-- For every instruction and every state exec answers a next state in which every register other than rd, halt, fault and every byte of memory are unchanged; if the instruction is neither JAL nor JALR the pc is pc+4. -/
def Obligations.EveryInstructionCommitsOnlyRdAndPc : Prop :=
  ∀ (i : Instr) (s : State), ∃ v target, CommitsTo i s i.rd v target ∧ (i.isJump = false → target = s.pc + 4#32)

/-- For every instruction and two states with the same pc and the same values in the source registers of the instruction: the two next states hold the same value in x[rd] and the same pc. -/
def Obligations.ResultsDependOnSourcesAndPcOnly : Prop :=
  ∀ (i : Instr) (s s' t t' : State), s.pc = s'.pc → (∀ r ∈ i.sources, s.readReg r = s'.readReg r) →
    exec i s = .next t → exec i s' = .next t' → t.readReg i.rd = t'.readReg i.rd ∧ t.pc = t'.pc

/-- In a state without a fault whose word read at the pc answers w, if decode w answers i then step s = exec i s, and a cycle under either ILLEGAL_POLICY is exec i s as well. -/
def Obligations.StepRunsTheDecodedInstruction : Prop :=
  ∀ (s : State) (w : Word) (i : Instr), s.fault = none → memReadWord s.mem s.pc = .ok w → decode w = .ok i →
    step s = exec i s ∧ ∀ p, cycleUnder p s = exec i s

/-- R161 with the fault entry of R166. Derived: R166 is marked as the spec's decision D11, and the no-wrap check is D8. -/
def Obligations.FetchBeyondTheStoreFaults : Prop :=
  ∀ s : State, s.fault = none → s.pc.toNat + 3 ≥ 65536 →
    step s = .next { s with fault := some { cause := .outOfBounds, fpc := s.pc, finst := none } }

/-- R163. Derived: ILLEGAL_POLICY = FAULT is the spec's decision D3 (log entry 3), the entry its decision D11. -/
def Obligations.UnrecognisedWordRaisesIllegalInstruction : Prop :=
  ∀ (s : State) (w : Word) (e : DecodeReject), s.fault = none → memReadWord s.mem s.pc = .ok w → decode w = .error e →
    step s = .next { s with fault := some { cause := .illegalInstruction, fpc := s.pc, finst := some w } }

/-- R88 under the parameter's other value. Derived: the parameter is the spec's decision D3. -/
def Obligations.NopPolicyAdvancesOverUnrecognisedWord : Prop :=
  ∀ (s : State) (w : Word) (e : DecodeReject), s.fault = none → memReadWord s.mem s.pc = .ok w → decode w = .error e →
    cycleUnder .nop s = .next { s with pc := s.pc + 4#32 }

/-- R87 and R166. Derived: both are marked as the spec's decision D11. -/
def Obligations.RaisingCycleChangesOnlyTheRecord : Prop :=
  ∀ (p : IllegalPolicy) (s t : State) (r : FaultRecord), cycleUnder p s = .next t → t.fault = some r →
    t = { s with fault := some r } ∧ r.fpc = s.pc ∧ r.cause ≠ .unimplementedInstruction ∧
    ((r.cause = .outOfBounds ∧ r.finst = none ∧ memReadWord s.mem s.pc = .error .outOfBounds) ∨
     (r.cause = .illegalInstruction ∧ p = .fault ∧
      ∃ w e, r.finst = some w ∧ memReadWord s.mem s.pc = .ok w ∧ decode w = .error e))

/-- R80 and R166. Derived: the record is the spec's decision D11; that a step in such a state answers the model's stop is the model's choice (log entry 1). -/
def Obligations.FaultedMachineExecutesNoCycle : Prop :=
  ∀ (s : State) (r : FaultRecord), s.fault = some r →
    step s = .fault (.stopped r) ∧ (∀ p, cycleUnder p s = .fault (.stopped r)) ∧
    ∀ p n, runBoundedUnder p n s = { final := s, outcomes := [] }

/-- R86 and R89: every cycle commits or faults. Derived: that a raising cycle answers a next state, and that its outcome Failed is read from that state by `outcomeOf`, is the model's choice (log entry 1); the policy NOP is the other value of the spec's decision D3 (log entry 3). -/
def Obligations.EveryCycleCommitsOrFaults : Prop :=
  ∀ (p : IllegalPolicy) (s : State), s.fault = none → ∃ t, cycleUnder p s = .next t ∧
    (outcomeOf t = .continued ↔ ∃ w, memReadWord s.mem s.pc = .ok w ∧ ((∃ i, decode w = .ok i) ∨ p = .nop)) ∧
    (∀ c, outcomeOf t = .failed c ↔ ∃ r, t.fault = some r ∧ r.cause = c) ∧ outcomeOf t ≠ .halted

/-- An invariant of every step, from every state that meets it. Derived: the record's part rests on the spec's decision D11 (log entry 14); the canonical form of memory (log entry 21) and the stored slot 0 (log entry 4) are the model's own. -/
def Obligations.StepKeepsTheInvariant : Prop :=
  ∀ s t : State, s.Inv → step s = .next t → t.Inv

/-- The state after reset (R22) meets State.Inv: canonical memory, register slot 0 zero, and a truthful record wherever one is held; that reset holds none is said by ResetLeavesEverythingZero, not here. Derived: the canonical form of memory (log entry 21) and the stored slot 0 (log entry 4) are the model's own. -/
def Obligations.ResetMeetsTheInvariant : Prop :=
  State.reset.Inv

/-- What the host and the loader may do before a cycle (R193, R194, R195, R17) keeps State.Inv. Derived: the rules give these actions, not the invariant: its canonical form of memory (log entry 21) and its stored slot 0 (log entry 4) are the model's own; the host as the writer of halt is the spec's decision D14 (log entry 17). -/
def Obligations.HostPreparationMeetsTheInvariant : Prop :=
  ∀ s : State, s.Inv → s.fault = none →
    (∀ a v t, loadWord a v s = .ok t → t.Inv ∧ t.fault = none) ∧
    (∀ a v t, loadByte a v s = .ok t → t.Inv ∧ t.fault = none) ∧
    (∀ seeds, (seedRegs seeds s).Inv ∧ (seedRegs seeds s).fault = none) ∧
    (∀ a, (startRun a s).Inv ∧ (startRun a s).fault = none) ∧
    (∀ b, (hostWriteHalt b s).Inv ∧ (hostWriteHalt b s).fault = none)

/-- R16: from an even START_PC the pc is always even. Derived: R16 marks it as derived from R151, R152 and R82. -/
def Obligations.EvenPcStaysEven : Prop :=
  ∀ s t : State, s.pc.toNat % 2 = 0 → step s = .next t → t.pc.toNat % 2 = 0

/-- For every n and every state s: if n steps from s answer t, then the memory and the halt flag of t are those of s. -/
def Obligations.RunNeverChangesMemoryOrHalt : Prop :=
  ∀ (n : Nat) (s t : State), core.run n s = .next t → t.mem = s.mem ∧ t.halt = s.halt

/-- For every state and every value b: the step from the state with halt set to b is the step from the state itself, with halt set to b in the next state. -/
def Obligations.HaltFlagDoesNotInfluenceACycle : Prop :=
  ∀ (s : State) (b : Bool), step { s with halt := b } = mapNext (fun t => { t with halt := b }) (step s)

/-- R90 and R94. Derived: counting and stopping early are the spec's decision D23 (log entry 20); that Failed is read from the state the raising cycle answers is the model's choice (log entry 1). -/
def Obligations.BoundedRunStopsAtFirstFailure : Prop :=
  ∀ (p : IllegalPolicy) (n : Nat) (s : State),
    (s.fault = none → ((runBoundedUnder p n s).outcomes = List.replicate n .continued ∧ (runBoundedUnder p n s).final.fault = none) ∨
     (∃ k r, k < n ∧ (runBoundedUnder p n s).final.fault = some r ∧
        (runBoundedUnder p n s).outcomes = List.replicate k .continued ++ [.failed r.cause])) ∧
    runBoundedUnder p 0 s = { final := s, outcomes := [] } ∧
    (∀ t, cycleUnder p s = .next t → t.fault = none →
      runBoundedUnder p (n + 1) s =
        { final := (runBoundedUnder p n t).final, outcomes := .continued :: (runBoundedUnder p n t).outcomes }) ∧
    (∀ t r, cycleUnder p s = .next t → t.fault = some r →
      runBoundedUnder p (n + 1) s = { final := t, outcomes := [.failed r.cause] }) ∧
    (∀ a, runBounded a n s = runBoundedUnder .fault n { s with pc := a })

/-- R91. Derived: the schedule of the host's moves, and that the run is followed as long as it lasts, are the model's choice (log entry 8). -/
def Obligations.UnboundedRunEndsOnlyByHaltOrFault : Prop :=
  ∀ (p : IllegalPolicy) (hs : List Bool) (s : State),
    ((runUnboundedUnder p hs s).1 = .ended →
      (runUnboundedUnder p hs s).2.final.halt = true ∨ (runUnboundedUnder p hs s).2.final.fault ≠ none) ∧
    (runUnboundedUnder p (true :: hs) s = (.ended, { final := { s with halt := true }, outcomes := [] })) ∧
    (s.halt = true → runUnboundedUnder p (false :: hs) s = (.ended, { final := s, outcomes := [] })) ∧
    (s.fault ≠ none → runUnboundedUnder p (false :: hs) s = (.ended, { final := s, outcomes := [] })) ∧
    (runUnboundedUnder p [] s = (.going, { final := s, outcomes := [] })) ∧
    (∀ t, s.halt = false → cycleUnder p s = .next t →
      (runUnboundedUnder p (false :: hs) s).1 = (runUnboundedUnder p hs t).1 ∧
      (runUnboundedUnder p (false :: hs) s).2.final = (runUnboundedUnder p hs t).2.final ∧
      (runUnboundedUnder p (false :: hs) s).2.outcomes = outcomeOf t :: (runUnboundedUnder p hs t).2.outcomes) ∧
    (∀ a, runUnbounded a hs s = runUnboundedUnder .fault hs { s with pc := a })

/-- R91: a program that never returns to an address it has executed before ends with a fault. Derived: R91 marks it as derived from R81, R88 and R66. -/
def Obligations.LongFaultFreeRunRevisitsAnAddress : Prop :=
  ∀ (s t : State) (n : Nat), 65534 ≤ n → RunsCleanly n s t →
    ∃ i j si sj, i < j ∧ j < n ∧ RunsCleanly i s si ∧ RunsCleanly j s sj ∧ si.pc = sj.pc

/-- R190. Derived: the reset action is the spec's decision D13; the memory after it is the host's (log entry 9). -/
def Obligations.CoreResetRestoresAllButMemory : Prop :=
  (∀ m : Memory, (∀ r, (coreReset m).readReg r = 0#32) ∧ (coreReset m).pc = 0#32 ∧ (coreReset m).halt = false ∧
    (coreReset m).fault = none ∧ (coreReset m).mem = m) ∧ coreReset [] = State.reset

/-- R92. The record's shape is the model's choice (log entry 10). -/
def Obligations.TracerSeesEachDecodedInstruction : Prop :=
  (∀ (s : State) (w : Word) (i : Instr), s.fault = none → memReadWord s.mem s.pc = .ok w → decode w = .ok i →
    ∃ t, step s = .next t ∧ traceOf s = some (TraceRecord.mk s.pc w (mnemonicOf i) i
      (i.sources.map s.readReg) (t.readReg i.rd))) ∧
  (∀ s : State, (s.fault ≠ none ∨ (∃ c, memReadWord s.mem s.pc = .error c) ∨
    ∃ w e, memReadWord s.mem s.pc = .ok w ∧ decode w = .error e) → traceOf s = none)

end
end

