-- ==== Sys2Proof/Laws/State.lean ====
section
/-! SUPPORT. What each update of State leaves of each field, and what a register reads after one. -/

namespace Sys2Proof.Machine

@[simp] theorem setPc_pc (s : State) (v : Word) : (s.setPc v).pc = v := rfl
@[simp] theorem setPc_regs (s : State) (v : Word) : (s.setPc v).regs = s.regs := rfl
@[simp] theorem setPc_halt (s : State) (v : Word) : (s.setPc v).halt = s.halt := rfl
@[simp] theorem setPc_fault (s : State) (v : Word) : (s.setPc v).fault = s.fault := rfl
@[simp] theorem setPc_mem (s : State) (v : Word) : (s.setPc v).mem = s.mem := rfl

@[simp] theorem takeFault_pc (s : State) (c : FaultCause) (w : Option Word) : (s.takeFault c w).pc = s.pc := rfl
@[simp] theorem takeFault_regs (s : State) (c : FaultCause) (w : Option Word) : (s.takeFault c w).regs = s.regs := rfl
@[simp] theorem takeFault_halt (s : State) (c : FaultCause) (w : Option Word) : (s.takeFault c w).halt = s.halt := rfl
@[simp] theorem takeFault_mem (s : State) (c : FaultCause) (w : Option Word) : (s.takeFault c w).mem = s.mem := rfl
@[simp] theorem takeFault_fault (s : State) (c : FaultCause) (w : Option Word) :
    (s.takeFault c w).fault = some ⟨c, s.pc, w⟩ := rfl

@[simp] theorem writeReg_pc (s : State) (r : Reg) (v : Word) : (s.writeReg r v).pc = s.pc := by
  unfold State.writeReg; split <;> rfl
@[simp] theorem writeReg_halt (s : State) (r : Reg) (v : Word) : (s.writeReg r v).halt = s.halt := by
  unfold State.writeReg; split <;> rfl
@[simp] theorem writeReg_fault (s : State) (r : Reg) (v : Word) : (s.writeReg r v).fault = s.fault := by
  unfold State.writeReg; split <;> rfl
@[simp] theorem writeReg_mem (s : State) (r : Reg) (v : Word) : (s.writeReg r v).mem = s.mem := by
  unfold State.writeReg; split <;> rfl

@[simp] theorem readReg_zero (s : State) : s.readReg 0 = 0#32 := rfl
@[simp] theorem setPc_readReg (s : State) (v : Word) (r : Reg) : (s.setPc v).readReg r = s.readReg r := rfl
@[simp] theorem takeFault_readReg (s : State) (c : FaultCause) (w : Option Word) (r : Reg) :
    (s.takeFault c w).readReg r = s.readReg r := rfl

/-- Read after write, over every register: the written one reads the value unless it is x0, every other one as before. -/
theorem writeReg_readReg (s : State) (rd r : Reg) (v : Word) :
    (s.writeReg rd v).readReg r = if r = rd ∧ r ≠ 0 then v else s.readReg r := by
  unfold State.readReg State.writeReg
  by_cases hr : r = 0
  · simp [hr]
  · by_cases hd : rd = 0
    · subst hd; simp [hr]
    · by_cases h : r = rd
      · subst h; simp [hr, Vector.get]
      · have h' : rd.val ≠ r.val := fun e => h (Fin.ext e.symm)
        simp [hr, hd, h, Vector.get, h']

/-- A write never touches slot 0. -/
theorem writeReg_slot_zero (s : State) (rd : Reg) (v : Word) : (s.writeReg rd v).regs.get 0 = s.regs.get 0 := by
  unfold State.writeReg
  by_cases h : rd = 0
  · simp [h]
  · have h' : rd.val ≠ 0 := fun e => h (Fin.ext e)
    simp [h, Vector.get, h']

/-- The commit of a cycle always answers a next state, and this one. -/
theorem commit_next (rd : Reg) (v target : Word) (s : State) :
    commit rd v target s = .next ((s.writeReg rd v).setPc target) := rfl

end Sys2Proof.Machine
end

