-- ==== Sys2Proof/Laws/Exec.lean ====
section
/-! SUPPORT. What each operand form and each instruction answers, once: one register write and one pc, committed together. -/

namespace Sys2Proof.Machine

theorem opRegImm_next (f : Word → Word → Word) (rd rs1 : Reg) (imm : Word) (s : State) :
    opRegImm f rd rs1 imm s = .next ((s.writeReg rd (f (s.readReg rs1) imm)).setPc s.nextPc) := rfl

theorem opRegShamt_next (f : Word → Shamt → Word) (rd rs1 : Reg) (n : Shamt) (s : State) :
    opRegShamt f rd rs1 n s = .next ((s.writeReg rd (f (s.readReg rs1) n)).setPc s.nextPc) := rfl

theorem opRegReg_next (f : Word → Word → Word) (rd rs1 rs2 : Reg) (s : State) :
    opRegReg f rd rs1 rs2 s = .next ((s.writeReg rd (f (s.readReg rs1) (s.readReg rs2))).setPc s.nextPc) := rfl

theorem opRegShift_next (f : Word → Shamt → Word) (rd rs1 rs2 : Reg) (s : State) :
    opRegShift f rd rs1 rs2 s =
      .next ((s.writeReg rd (f (s.readReg rs1) (shamtOfReg (s.readReg rs2)))).setPc s.nextPc) := rfl

/-- Where an instruction leaves the pc (10_state.md R15). -/
def targetOf (s : State) : Instr → Word
  | .jal _ off => jalTarget off s
  | .jalr _ rs1 imm => jalrTarget rs1 imm s
  | .addi _ _ _ | .slti _ _ _ | .sltiu _ _ _ | .xori _ _ _ | .ori _ _ _ | .andi _ _ _ => s.nextPc
  | .slli _ _ _ | .srli _ _ _ | .srai _ _ _ | .lui _ _ | .auipc _ _ => s.nextPc
  | .add _ _ _ | .sub _ _ _ | .sll _ _ _ | .slt _ _ _ | .sltu _ _ _ => s.nextPc
  | .xor _ _ _ | .srl _ _ _ | .sra _ _ _ | .or _ _ _ | .and _ _ _ => s.nextPc

/-- Everything an instruction can do: it commits one value to its own rd, and its pc. -/
theorem exec_commits (i : Instr) (s : State) :
    ∃ v, exec i s = .next ((s.writeReg i.rd v).setPc (targetOf s i)) := by
  cases i <;> exact ⟨_, rfl⟩

end Sys2Proof.Machine
end

