-- ==== Sys2Proof/Laws/Memory.lean ====
section
/-! SUPPORT. The laws of the byte store: read after write, and that every operation keeps the canonical form. -/

namespace Sys2Proof.Machine

/-- The store's size as a literal, for the arithmetic procedures (R4). -/
theorem memSize_eq : Config.memSize = 65536 := rfl

theorem getByte_of_lt (m : Memory) (a : Nat) (h : ∀ c ∈ m, a < c.1) : getByte m a = 0#8 := by
  induction m with
  | nil => rfl
  | cons c m ih =>
    have := h c (by simp)
    simp only [getByte]
    rw [if_neg (by omega)]
    exact ih fun d hd => h d (by simp [hd])

theorem setByte_addresses (m : Memory) (a : Nat) (b : Byte) :
    ∀ c ∈ setByte m a b, c ∈ m ∨ (c = (a, b) ∧ b ≠ 0#8) := by
  induction m with
  | nil => intro c hc; simp only [setByte] at hc; split at hc <;> simp_all
  | cons d m ih =>
    intro c hc
    simp only [setByte] at hc
    split at hc
    · split at hc <;> simp_all; tauto
    · split at hc
      · split at hc <;> simp_all; tauto
      · rcases List.mem_cons.1 hc with h | h
        · simp [h]
        · rcases ih c h with h | h <;> simp [h]

/-- Reading any byte after storing one; the canonical order is what makes a stored zero read back. -/
theorem getByte_setByte (m : Memory) (a x : Nat) (b : Byte) (hm : m.Pairwise fun c d => c.1 < d.1) :
    getByte (setByte m a b) x = if x = a then b else getByte m x := by
  induction m with
  | nil =>
    simp only [setByte]
    split
    · rename_i hb; simp [getByte, hb]
    · simp only [getByte]; split <;> split <;> first | rfl | omega
  | cons c m ih =>
    rw [List.pairwise_cons] at hm
    simp only [setByte]
    split
    · split
      · split
        · subst_vars; exact getByte_of_lt _ _ fun d hd => by
            rcases List.mem_cons.1 hd with rfl | hd
            · assumption
            · have := hm.1 d hd; omega
        · rfl
      · simp only [getByte, eq_comm]
    · split
      · split
        · split
          · subst_vars; exact getByte_of_lt _ _ hm.1
          · simp only [getByte]; rw [if_neg (by omega)]
        · simp only [getByte]; split <;> split <;> first | rfl | omega | (rw [if_neg (by omega)])
      · simp only [getByte, ih hm.2]
        split <;> split <;> first | rfl | omega

theorem setByte_sorted (m : Memory) (a : Nat) (b : Byte) (hm : m.Pairwise fun c d => c.1 < d.1) :
    (setByte m a b).Pairwise fun c d => c.1 < d.1 := by
  induction m with
  | nil => simp only [setByte]; split <;> simp
  | cons c m ih =>
    have hc := List.pairwise_cons.1 hm
    simp only [setByte]
    split
    · split
      · exact hm
      · refine List.pairwise_cons.2 ⟨fun d hd => ?_, hm⟩
        rcases List.mem_cons.1 hd with rfl | hd
        · assumption
        · have := hc.1 d hd; simp only; omega
    · split
      · split
        · exact hc.2
        · refine List.pairwise_cons.2 ⟨fun d hd => ?_, hc.2⟩
          have := hc.1 d hd; simp only; omega
      · refine List.pairwise_cons.2 ⟨fun d hd => ?_, ih hc.2⟩
        rcases setByte_addresses m a b d hd with h | ⟨rfl, -⟩
        · exact hc.1 d h
        · simp only; omega

/-- Storing a byte inside the store keeps the canonical form. -/
theorem setByte_wf (m : Memory) (a : Nat) (b : Byte) (ha : a < Config.memSize) (hm : m.wf) : (setByte m a b).wf := by
  refine ⟨setByte_sorted m a b hm.1, fun c hc => ?_⟩
  rcases setByte_addresses m a b c hc with h | ⟨rfl, hb⟩
  · exact hm.2 c h
  · exact ⟨ha, hb⟩

theorem setWord_wf (m : Memory) (a : Nat) (v : Word) (ha : a + 3 < Config.memSize) (hm : m.wf) : (setWord m a v).wf := by
  unfold setWord
  exact setByte_wf _ _ _ ha <| setByte_wf _ _ _ (by omega) <| setByte_wf _ _ _ (by omega) <|
    setByte_wf _ _ _ (by omega) hm

/-- A byte write that succeeds keeps the canonical form. -/
theorem memWriteByte_wf {m m' : Memory} {addr : Word} {v : Byte} (h : memWriteByte m addr v = .ok m') (hm : m.wf) :
    m'.wf := by
  unfold memWriteByte at h
  split at h
  · cases h
  · cases h; exact setByte_wf _ _ _ (by omega) hm

/-- A word write that succeeds keeps the canonical form. -/
theorem memWriteWord_wf {m m' : Memory} {addr v : Word} (h : memWriteWord m addr v = .ok m') (hm : m.wf) : m'.wf := by
  unfold memWriteWord at h
  split at h
  · cases h
  · cases h; exact setWord_wf _ _ _ (by omega) hm

theorem reset_mem_wf : State.reset.mem.wf := ⟨List.Pairwise.nil, fun _ h => by cases h⟩

/-- The byte at `x` after a word is stored at `a`. -/
theorem getByte_setWord (m : Memory) (a x : Nat) (v : Word) (hm : m.Pairwise fun c d => c.1 < d.1) :
    getByte (setWord m a v) x =
      if x = a + 3 then byteOfWord v 3 else if x = a + 2 then byteOfWord v 2
      else if x = a + 1 then byteOfWord v 1 else if x = a then byteOfWord v 0 else getByte m x := by
  have h0 := setByte_sorted m a (byteOfWord v 0) hm
  have h1 := setByte_sorted _ (a + 1) (byteOfWord v 1) h0
  have h2 := setByte_sorted _ (a + 2) (byteOfWord v 2) h1
  unfold setWord
  rw [getByte_setByte _ _ _ _ h2, getByte_setByte _ _ _ _ h1, getByte_setByte _ _ _ _ h0, getByte_setByte _ _ _ _ hm]

/-- A word is the four bytes it is stored as. -/
theorem wordOfBytes_byteOfWord (v : Word) :
    wordOfBytes (byteOfWord v 0) (byteOfWord v 1) (byteOfWord v 2) (byteOfWord v 3) = v := by
  unfold wordOfBytes byteOfWord
  apply BitVec.eq_of_getLsbD_eq
  intro i hi
  simp only [BitVec.getLsbD_append, BitVec.getLsbD_extractLsb']
  split
  · simp_all
  · split
    · have : i - 8 < 8 := by omega
      simp_all
    · split
      · have h : i - 8 - 8 < 8 := by omega
        have e : 16 + (i - 8 - 8) = i := by omega
        simp_all
      · have h : i - 8 - 8 - 8 < 8 := by omega
        have e : 24 + (i - 8 - 8 - 8) = i := by omega
        simp_all

end Sys2Proof.Machine
end

