-- ==== Sys2Proof/Laws/PerInstr.lean ====
section
/-! SUPPORT. Per instruction: the encoder's word lies in the instruction's own row of the opcode table, `w & mask = match` (30_encoding.md R62, R69). -/

namespace Sys2Proof

theorem and_ones3 (v : BitVec 3) : v &&& 7#3 = v := BitVec.and_allOnes
theorem and_ones7 (v : BitVec 7) : v &&& 127#7 = v := BitVec.and_allOnes

/-- The I format under the mask of opcode and funct3. -/
theorem encodeI_and_mask (imm : Word) (rs1 rd : Reg) (f3 : BitVec 3) (op : BitVec 7) :
    encodeI imm rs1 f3 rd op &&& 0x0000707F#32 = 0#17 ++ f3 ++ 0#5 ++ op := by
  have hm : 0x0000707F#32 = (0#12 ++ 0#5 ++ 7#3 ++ 0#5 ++ 0x7F#7 : BitVec (12 + 5 + 3 + 5 + 7)) := by decide
  rw [hm]
  show (imm.extractLsb 11 0 ++ regBits rs1 ++ f3 ++ regBits rd ++ op : BitVec (12 + 5 + 3 + 5 + 7)) &&& _ = _
  rw [BitVec.and_append, BitVec.and_append, BitVec.and_append, BitVec.and_append, and_ones3, and_ones7]
  simp

/-- The R format under the mask of opcode and funct3. -/
theorem encodeR_and_mask (f7 : BitVec 7) (rs2 rs1 rd : Reg) (f3 : BitVec 3) (op : BitVec 7) :
    encodeR f7 rs2 rs1 f3 rd op &&& 0x0000707F#32 = 0#17 ++ f3 ++ 0#5 ++ op := by
  have hm : 0x0000707F#32 = (0#7 ++ 0#5 ++ 0#5 ++ 7#3 ++ 0#5 ++ 0x7F#7 : BitVec (7 + 5 + 5 + 3 + 5 + 7)) := by decide
  rw [hm]
  show (f7 ++ regBits rs2 ++ regBits rs1 ++ f3 ++ regBits rd ++ op : BitVec (7 + 5 + 5 + 3 + 5 + 7)) &&& _ = _
  rw [BitVec.and_append, BitVec.and_append, BitVec.and_append, BitVec.and_append, BitVec.and_append, and_ones3,
    and_ones7]
  simp

/-- The R format under the mask that also holds bit 30. -/
theorem encodeR_and_mask30 (f7 : BitVec 7) (rs2 rs1 rd : Reg) (f3 : BitVec 3) (op : BitVec 7) :
    encodeR f7 rs2 rs1 f3 rd op &&& 0x4000707F#32 = (f7 &&& 0x20#7) ++ 0#5 ++ 0#5 ++ f3 ++ 0#5 ++ op := by
  have hm : 0x4000707F#32 = (0x20#7 ++ 0#5 ++ 0#5 ++ 7#3 ++ 0#5 ++ 0x7F#7 : BitVec (7 + 5 + 5 + 3 + 5 + 7)) := by decide
  rw [hm]
  show (f7 ++ regBits rs2 ++ regBits rs1 ++ f3 ++ regBits rd ++ op : BitVec (7 + 5 + 5 + 3 + 5 + 7)) &&& _ = _
  rw [BitVec.and_append, BitVec.and_append, BitVec.and_append, BitVec.and_append, BitVec.and_append, and_ones3,
    and_ones7]
  simp

/-- The U format under the mask of the opcode. -/
theorem encodeU_and_mask (imm : Word) (rd : Reg) (op : BitVec 7) : encodeU imm rd op &&& 0x0000007F#32 = 0#25 ++ op := by
  have hm : 0x0000007F#32 = (0#20 ++ 0#5 ++ 0x7F#7 : BitVec (20 + 5 + 7)) := by decide
  rw [hm]
  show (imm.extractLsb 31 12 ++ regBits rd ++ op : BitVec (20 + 5 + 7)) &&& _ = _
  rw [BitVec.and_append, BitVec.and_append, and_ones7]
  simp

/-- The J format under the mask of the opcode. -/
theorem encodeJ_and_mask (off : Word) (rd : Reg) (op : BitVec 7) : encodeJ off rd op &&& 0x0000007F#32 = 0#25 ++ op := by
  have hm : 0x0000007F#32 = (0#1 ++ 0#10 ++ 0#1 ++ 0#8 ++ 0#5 ++ 0x7F#7 : BitVec (1 + 10 + 1 + 8 + 5 + 7)) := by decide
  rw [hm]
  show (off.extractLsb 20 20 ++ off.extractLsb 10 1 ++ off.extractLsb 11 11 ++ off.extractLsb 19 12 ++ regBits rd ++ op :
    BitVec (1 + 10 + 1 + 8 + 5 + 7)) &&& _ = _
  rw [BitVec.and_append, BitVec.and_append, BitVec.and_append, BitVec.and_append, BitVec.and_append, and_ones7]
  simp

/-- The shift form is the R format with the shift amount in the place of rs2. -/
theorem encodeShift_eq_encodeR (f7 : BitVec 7) (shamt : Shamt) (rs1 rd : Reg) (f3 : BitVec 3) (op : BitVec 7) :
    encodeShift f7 shamt rs1 f3 rd op = encodeR f7 shamt.toFin rs1 f3 rd op := rfl

/-- The canonical word of `i` lies in its row of the table. -/
def Laws.EncodeMatchesTable.Statement (i : Instr) : Prop := encode i &&& tableMask i = tableMatch i

theorem Laws.EncodeMatchesTable.addi (rd rs1 : Reg) (imm : Word) :
    Statement (.addi rd rs1 imm) :=
  (encodeI_and_mask _ _ _ _ _).trans (by simp only [tableMatch]; decide)

theorem Laws.EncodeMatchesTable.slti (rd rs1 : Reg) (imm : Word) :
    Statement (.slti rd rs1 imm) :=
  (encodeI_and_mask _ _ _ _ _).trans (by simp only [tableMatch]; decide)

theorem Laws.EncodeMatchesTable.sltiu (rd rs1 : Reg) (imm : Word) :
    Statement (.sltiu rd rs1 imm) :=
  (encodeI_and_mask _ _ _ _ _).trans (by simp only [tableMatch]; decide)

theorem Laws.EncodeMatchesTable.xori (rd rs1 : Reg) (imm : Word) :
    Statement (.xori rd rs1 imm) :=
  (encodeI_and_mask _ _ _ _ _).trans (by simp only [tableMatch]; decide)

theorem Laws.EncodeMatchesTable.ori (rd rs1 : Reg) (imm : Word) :
    Statement (.ori rd rs1 imm) :=
  (encodeI_and_mask _ _ _ _ _).trans (by simp only [tableMatch]; decide)

theorem Laws.EncodeMatchesTable.andi (rd rs1 : Reg) (imm : Word) :
    Statement (.andi rd rs1 imm) :=
  (encodeI_and_mask _ _ _ _ _).trans (by simp only [tableMatch]; decide)

theorem Laws.EncodeMatchesTable.slli (rd rs1 : Reg) (shamt : Shamt) :
    Statement (.slli rd rs1 shamt) :=
  (encodeR_and_mask _ _ _ _ _ _).trans (by simp only [tableMatch]; decide)

theorem Laws.EncodeMatchesTable.srli (rd rs1 : Reg) (shamt : Shamt) :
    Statement (.srli rd rs1 shamt) :=
  (encodeR_and_mask30 _ _ _ _ _ _).trans (by simp only [tableMatch]; decide)

theorem Laws.EncodeMatchesTable.srai (rd rs1 : Reg) (shamt : Shamt) :
    Statement (.srai rd rs1 shamt) :=
  (encodeR_and_mask30 _ _ _ _ _ _).trans (by simp only [tableMatch]; decide)

theorem Laws.EncodeMatchesTable.lui (rd : Reg) (imm : Word) :
    Statement (.lui rd imm) :=
  (encodeU_and_mask _ _ _).trans (by simp only [tableMatch]; decide)

theorem Laws.EncodeMatchesTable.auipc (rd : Reg) (imm : Word) :
    Statement (.auipc rd imm) :=
  (encodeU_and_mask _ _ _).trans (by simp only [tableMatch]; decide)

theorem Laws.EncodeMatchesTable.add (rd rs1 rs2 : Reg) :
    Statement (.add rd rs1 rs2) :=
  (encodeR_and_mask30 _ _ _ _ _ _).trans (by simp only [tableMatch]; decide)

theorem Laws.EncodeMatchesTable.sub (rd rs1 rs2 : Reg) :
    Statement (.sub rd rs1 rs2) :=
  (encodeR_and_mask30 _ _ _ _ _ _).trans (by simp only [tableMatch]; decide)

theorem Laws.EncodeMatchesTable.sll (rd rs1 rs2 : Reg) :
    Statement (.sll rd rs1 rs2) :=
  (encodeR_and_mask _ _ _ _ _ _).trans (by simp only [tableMatch]; decide)

theorem Laws.EncodeMatchesTable.slt (rd rs1 rs2 : Reg) :
    Statement (.slt rd rs1 rs2) :=
  (encodeR_and_mask _ _ _ _ _ _).trans (by simp only [tableMatch]; decide)

theorem Laws.EncodeMatchesTable.sltu (rd rs1 rs2 : Reg) :
    Statement (.sltu rd rs1 rs2) :=
  (encodeR_and_mask _ _ _ _ _ _).trans (by simp only [tableMatch]; decide)

theorem Laws.EncodeMatchesTable.xor (rd rs1 rs2 : Reg) :
    Statement (.xor rd rs1 rs2) :=
  (encodeR_and_mask _ _ _ _ _ _).trans (by simp only [tableMatch]; decide)

theorem Laws.EncodeMatchesTable.srl (rd rs1 rs2 : Reg) :
    Statement (.srl rd rs1 rs2) :=
  (encodeR_and_mask30 _ _ _ _ _ _).trans (by simp only [tableMatch]; decide)

theorem Laws.EncodeMatchesTable.sra (rd rs1 rs2 : Reg) :
    Statement (.sra rd rs1 rs2) :=
  (encodeR_and_mask30 _ _ _ _ _ _).trans (by simp only [tableMatch]; decide)

theorem Laws.EncodeMatchesTable.or (rd rs1 rs2 : Reg) :
    Statement (.or rd rs1 rs2) :=
  (encodeR_and_mask _ _ _ _ _ _).trans (by simp only [tableMatch]; decide)

theorem Laws.EncodeMatchesTable.and (rd rs1 rs2 : Reg) :
    Statement (.and rd rs1 rs2) :=
  (encodeR_and_mask _ _ _ _ _ _).trans (by simp only [tableMatch]; decide)

theorem Laws.EncodeMatchesTable.jal (rd : Reg) (off : Word) :
    Statement (.jal rd off) :=
  (encodeJ_and_mask _ _ _).trans (by simp only [tableMatch]; decide)

theorem Laws.EncodeMatchesTable.jalr (rd rs1 : Reg) (imm : Word) :
    Statement (.jalr rd rs1 imm) :=
  (encodeI_and_mask _ _ _ _ _).trans (by simp only [tableMatch]; decide)

end Sys2Proof
end

