-- ==== Sys2Proof/Laws/Step.lean ====
section
/-! SUPPORT. Everything a cycle can do, by cases: stopped, fetch out of bounds, an instruction's meaning, an unrecognised word. -/

namespace Sys2Proof.Machine

theorem fetch_eq (s : State) : fetch s = memReadWord s.mem s.pc := rfl

/-- A failing word read is OutOfBounds, and its address is too high (20_memory.md R34). -/
theorem memReadWord_error {m : Memory} {a : Word} {c : FaultCause} (h : memReadWord m a = .error c) :
    c = .outOfBounds ∧ a.toNat + 3 ≥ Config.memSize := by
  unfold memReadWord at h
  split at h
  · cases h; exact ⟨rfl, by assumption⟩
  · cases h

/-- The inversion of a cycle that answers a next state. -/
theorem cycleUnder_cases {p : IllegalPolicy} {s t : State} (h : cycleUnder p s = .next t) :
    s.fault = none ∧
    ((memReadWord s.mem s.pc = .error .outOfBounds ∧ s.pc.toNat + 3 ≥ Config.memSize ∧
        t = s.takeFault .outOfBounds none) ∨
     (∃ w i, memReadWord s.mem s.pc = .ok w ∧ decode w = .ok i ∧ exec i s = .next t) ∨
     (∃ w e, memReadWord s.mem s.pc = .ok w ∧ decode w = .error e ∧
        ((p = .fault ∧ t = s.takeFault .illegalInstruction (some w)) ∨ (p = .nop ∧ t = s.setPc s.nextPc)))) := by
  unfold cycleUnder fetch at h
  split at h
  · cases h
  · rename_i hf
    refine ⟨hf, ?_⟩
    split at h
    · rename_i c hc
      obtain ⟨rfl, hb⟩ := memReadWord_error hc
      cases h
      exact .inl ⟨hc, hb, rfl⟩
    · rename_i w hw
      unfold runWord at h
      split at h
      · rename_i i hi
        exact .inr (.inl ⟨w, i, hw, hi, h⟩)
      · rename_i e he
        refine .inr (.inr ⟨w, e, hw, he, ?_⟩)
        unfold unrecognised commitNop at h
        split at h
        · cases h; exact .inl ⟨rfl, rfl⟩
        · cases h; exact .inr ⟨rfl, rfl⟩

/-- The same for a step of this hardware, whose policy is `FAULT`. -/
theorem step_cases {s t : State} (h : step s = .next t) :
    s.fault = none ∧
    ((s.pc.toNat + 3 ≥ Config.memSize ∧ t = s.takeFault .outOfBounds none) ∨
     (∃ w i, memReadWord s.mem s.pc = .ok w ∧ decode w = .ok i ∧ exec i s = .next t) ∨
     (∃ w e, memReadWord s.mem s.pc = .ok w ∧ decode w = .error e ∧
        t = s.takeFault .illegalInstruction (some w))) := by
  obtain ⟨hf, h | h | ⟨w, e, hw, he, h⟩⟩ := cycleUnder_cases (p := Config.illegalPolicy) h
  · exact ⟨hf, .inl ⟨h.2.1, h.2.2⟩⟩
  · exact ⟨hf, .inr (.inl h)⟩
  · rcases h with ⟨-, h⟩ | ⟨h, -⟩
    · exact ⟨hf, .inr (.inr ⟨w, e, hw, he, h⟩)⟩
    · cases h

end Sys2Proof.Machine
end

