-- ==== Sys2Proof/Laws/Run.lean ====
section
/-! SUPPORT. What the loader, the host and the run modes answer, once each. -/

namespace Sys2Proof.Machine

/-- A successful word read lies inside the store and is its four bytes (20_memory.md R33, R34). -/
theorem memReadWord_ok {m : Memory} {a w : Word} (h : memReadWord m a = .ok w) :
    a.toNat + 3 < Config.memSize ∧
    w = wordOfBytes (getByte m a.toNat) (getByte m (a.toNat + 1)) (getByte m (a.toNat + 2)) (getByte m (a.toNat + 3)) := by
  unfold memReadWord at h
  split at h
  · cases h
  · cases h; exact ⟨by omega, rfl⟩

/-- A successful byte read lies inside the store (R36). -/
theorem memReadByte_ok {m : Memory} {a : Word} {b : Byte} (h : memReadByte m a = .ok b) :
    a.toNat < Config.memSize ∧ b = getByte m a.toNat := by
  unfold memReadByte at h
  split at h
  · cases h
  · cases h; exact ⟨by omega, rfl⟩

/-- A loader write that succeeds changes only memory (70_reset_and_hazards.md R194). -/
theorem loadWord_ok {a v : Word} {s t : State} (h : loadWord a v s = .ok t) :
    ∃ m, memWriteWord s.mem a v = .ok m ∧ t = { s with mem := m } := by
  unfold loadWord at h
  split at h
  · rename_i m hm; cases h; exact ⟨m, hm, rfl⟩
  · cases h

theorem loadByte_ok {a : Word} {v : Byte} {s t : State} (h : loadByte a v s = .ok t) :
    ∃ m, memWriteByte s.mem a v = .ok m ∧ t = { s with mem := m } := by
  unfold loadByte at h
  split at h
  · rename_i m hm; cases h; exact ⟨m, hm, rfl⟩
  · cases h

@[simp] theorem startRun_pc (a : Word) (s : State) : (startRun a s).pc = a := rfl
@[simp] theorem startRun_fault (a : Word) (s : State) : (startRun a s).fault = s.fault := rfl
@[simp] theorem startRun_mem (a : Word) (s : State) : (startRun a s).mem = s.mem := rfl
@[simp] theorem hostWriteHalt_halt (b : Bool) (s : State) : (hostWriteHalt b s).halt = b := rfl
@[simp] theorem hostWriteHalt_fault (b : Bool) (s : State) : (hostWriteHalt b s).fault = s.fault := rfl
@[simp] theorem hostWriteHalt_mem (b : Bool) (s : State) : (hostWriteHalt b s).mem = s.mem := rfl
@[simp] theorem after_final (o : CycleOutcome) (r : RunResult) : (r.after o).final = r.final := rfl
@[simp] theorem after_outcomes (o : CycleOutcome) (r : RunResult) : (r.after o).outcomes = o :: r.outcomes := rfl

/-- The outcome is Continue exactly where no fault is recorded (40_fetch_cycle.md R86). -/
theorem outcomeOf_continued (t : State) : outcomeOf t = .continued ↔ t.fault = none := by
  unfold outcomeOf
  cases t.fault <;> simp

/-- One more cycle of a bounded run, where the first commits (R90). -/
theorem runBounded_succ_committed {p : IllegalPolicy} {s t : State} (n : Nat) (h : cycleUnder p s = .next t)
    (ht : t.fault = none) : runBoundedUnder p (n + 1) s = (runBoundedUnder p n t).after .continued := by
  simp [runBoundedUnder, h, (outcomeOf_continued t).2 ht]

/-- A bounded run whose first cycle fails (R90). -/
theorem runBounded_succ_failed {p : IllegalPolicy} {s t : State} {r : FaultRecord} (n : Nat) (h : cycleUnder p s = .next t)
    (ht : t.fault = some r) : runBoundedUnder p (n + 1) s = ⟨t, [.failed r.cause]⟩ := by
  simp [runBoundedUnder, h, outcomeOf, ht]

/-- A loop test that finds halt set ends the run with no cycle (R91). -/
theorem runUnbounded_cons_halted {p : IllegalPolicy} {b : Bool} {s : State} (hs : List Bool)
    (h : (hostMove b s).halt = true) : runUnboundedUnder p (b :: hs) s = (.ended, ⟨hostMove b s, []⟩) := by
  simp [runUnboundedUnder, h]

/-- A loop test that lets a cycle run: its outcome comes first, and the run goes on from its next state (R91). -/
theorem runUnbounded_cons_next {p : IllegalPolicy} {b : Bool} {s t : State} (hs : List Bool)
    (hh : (hostMove b s).halt = false) (h : cycleUnder p (hostMove b s) = .next t) :
    runUnboundedUnder p (b :: hs) s =
      ((runUnboundedUnder p hs t).1, (runUnboundedUnder p hs t).2.after (outcomeOf t)) := by
  simp [runUnboundedUnder, hh, h]

/-- Seeds are applied in the order of the list (70_reset_and_hazards.md R193). -/
theorem seedRegs_append (early later : List (Reg × Word)) (s : State) :
    seedRegs (early ++ later) s = seedRegs later (seedRegs early s) := List.foldl_append

theorem seedRegs_cons (seed : Reg × Word) (later : List (Reg × Word)) (s : State) :
    seedRegs (seed :: later) s = seedRegs later (s.writeReg seed.1 seed.2) := rfl

end Sys2Proof.Machine
end

