-- ==== Sys2Proof/Machine/Assembly.lean ====
section
/-! DEFINITION. The reader's names of 10_state.md R13 and 30_encoding.md R71: ABI register names and pseudo-instructions. They carry no hardware meaning; the step does not use them. -/

namespace Sys2Proof.Machine

/-- The standard ABI alias of a register (R13). -/
def abiName (r : Reg) : String :=
  (["zero", "ra", "sp", "gp", "tp", "t0", "t1", "t2", "s0", "s1"] ++
    ["a0", "a1", "a2", "a3", "a4", "a5", "a6", "a7"] ++
    ["s2", "s3", "s4", "s5", "s6", "s7", "s8", "s9", "s10", "s11", "t3", "t4", "t5", "t6"]).getD r.val ""

/-- The low part of a 32-bit constant: the signed 12-bit value of `v[11:0]` (R71, LI). -/
def loPart (v : Word) : Word := sext (v.extractLsb 11 0)

/-- The high part as `imm_U`: `((v - lo) >> 12) & 0xFFFFF` placed in bits 31 to 12 (R71, LI). -/
def hiPart (v : Word) : Word := (v - loPart v) &&& 0xFFFFF000#32

/-- The pseudo-instructions of R71. -/
inductive Pseudo where
  | nop
  | mv (rd rs : Reg)
  | not (rd rs : Reg)
  | neg (rd rs : Reg)
  | seqz (rd rs : Reg)
  | snez (rd rs : Reg)
  | sltz (rd rs : Reg)
  | sgtz (rd rs : Reg)
  | li (rd : Reg) (v : Word)
  | j (off : Word)
  | jalOff (off : Word)
  | jr (rs : Reg)
  | jalrReg (rs : Reg)
  | ret
  | call (off : Word)
  | tail (off : Word)
  deriving DecidableEq, Repr

/-- LI: one ADDI where the constant fits, else LUI and, unless its low part is 0, ADDI (R71). -/
def expandLi (rd : Reg) (v : Word) : List Instr :=
  if immIFits v then [.addi rd 0 v]
  else if loPart v = 0#32 then [.lui rd (hiPart v)]
  else [.lui rd (hiPart v), .addi rd rd (loPart v)]

/-- The expansion of a pseudo-instruction (R71). -/
def expandPseudo : Pseudo → List Instr
  | .nop => [.addi 0 0 0#32]
  | .mv rd rs => [.addi rd rs 0#32]
  | .not rd rs => [.xori rd rs 0xFFFFFFFF#32]
  | .neg rd rs => [.sub rd 0 rs]
  | .seqz rd rs => [.sltiu rd rs 1#32]
  | .snez rd rs => [.sltu rd 0 rs]
  | .sltz rd rs => [.slt rd rs 0]
  | .sgtz rd rs => [.slt rd 0 rs]
  | .li rd v => expandLi rd v
  | .j off => [.jal 0 off]
  | .jalOff off => [.jal 1 off]
  | .jr rs => [.jalr 0 rs 0#32]
  | .jalrReg rs => [.jalr 1 rs 0#32]
  | .ret => [.jalr 0 1 0#32]
  | .call off => [.auipc 1 (hiPart off), .jalr 1 1 (loPart off)]
  | .tail off => [.auipc 6 (hiPart off), .jalr 0 6 (loPart off)]

end Sys2Proof.Machine
end

