-- ==== Sys2Proof/Tests/Slice0.lean ====
section
/-! SUPPORT. Small tests: expected results are those of spec/95_test_vectors.md (the vector is named in each comment), and witnesses that the hypotheses of the statements can be met. -/

namespace Sys2Proof.Tests
open Sys2Proof Sys2Proof.Machine

/-- A state as the vectors give it: the pc, the word there, and some registers; everything else as after reset. -/
def stateAt (pc : Word) (w : Nat) (seeds : List (Reg × Word)) : State :=
  seedRegs seeds ((startRun pc State.reset).withFetchWord 32 w)

/-- What a step leaves in one register, in the pc and in the fault record. -/
def afterStep (s : State) (r : Reg) : Option (Word × Word × Option FaultRecord) :=
  match step s with
  | .next t => some (t.readReg r, t.pc, t.fault)
  | .fault _ => none
  | .refused _ => none

/-- The decoder's answer, without the reason of a refusal. -/
def decodes (w : Word) : Option Instr :=
  match decode w with
  | .ok i => some i
  | .error _ => none

/-! ### WellFormed refuses each ill-formed operand -/

-- imm -2048 to 2047 (R70): 2048 and -2049 refused
theorem test_wf_addi_refuses_2048 : (Instr.addi 1 2 2048#32).wf = false ∧ (Instr.addi 1 2 0xFFFFF7FF#32).wf = false ∧ (Instr.addi 1 2 0xFFFFF800#32).wf = true := by decide

theorem test_wf_slti_refuses_2048 : (Instr.slti 1 2 2048#32).wf = false ∧ (Instr.slti 1 2 0xFFFFF7FF#32).wf = false ∧ (Instr.slti 1 2 0xFFFFF800#32).wf = true := by decide

theorem test_wf_sltiu_refuses_2048 : (Instr.sltiu 1 2 2048#32).wf = false ∧ (Instr.sltiu 1 2 0xFFFFF7FF#32).wf = false ∧ (Instr.sltiu 1 2 0xFFFFF800#32).wf = true := by decide

theorem test_wf_xori_refuses_2048 : (Instr.xori 1 2 2048#32).wf = false ∧ (Instr.xori 1 2 0xFFFFF7FF#32).wf = false ∧ (Instr.xori 1 2 0xFFFFF800#32).wf = true := by decide

theorem test_wf_ori_refuses_2048 : (Instr.ori 1 2 2048#32).wf = false ∧ (Instr.ori 1 2 0xFFFFF7FF#32).wf = false ∧ (Instr.ori 1 2 0xFFFFF800#32).wf = true := by decide

theorem test_wf_andi_refuses_2048 : (Instr.andi 1 2 2048#32).wf = false ∧ (Instr.andi 1 2 0xFFFFF7FF#32).wf = false ∧ (Instr.andi 1 2 0xFFFFF800#32).wf = true := by decide

theorem test_wf_jalr_refuses_2048 : (Instr.jalr 1 2 2048#32).wf = false ∧ (Instr.jalr 1 2 0xFFFFF7FF#32).wf = false ∧ (Instr.jalr 1 2 0xFFFFF800#32).wf = true := by decide

-- the low 12 bits are zero (R56)
theorem test_wf_lui_refuses_low_bits : (Instr.lui 1 0x00001001#32).wf = false ∧ (Instr.lui 1 0xFFFFF000#32).wf = true := by decide

theorem test_wf_auipc_refuses_low_bits : (Instr.auipc 1 0x00001001#32).wf = false ∧ (Instr.auipc 1 0xFFFFF000#32).wf = true := by decide

-- an even offset, -1048576 to 1048574 (R57, R70)
theorem test_wf_jal_refuses_odd_and_far : (Instr.jal 1 3#32).wf = false ∧ (Instr.jal 1 1048576#32).wf = false ∧ (Instr.jal 1 0xFFEFFFFE#32).wf = false ∧ (Instr.jal 1 0xFFF00000#32).wf = true := by decide

/-! ### Decoding: words written from the encodings (V212 to V217), for every constructor -/

theorem test_word_addi : decode 0x80030293#32 = .ok (.addi 5 6 0xFFFFF800#32) ∧ encode (.addi 5 6 0xFFFFF800#32) = 0x80030293#32 := by decide

theorem test_word_slti : decode 0xFFF32293#32 = .ok (.slti 5 6 0xFFFFFFFF#32) ∧ encode (.slti 5 6 0xFFFFFFFF#32) = 0xFFF32293#32 := by decide

theorem test_word_sltiu : decode 0x00133293#32 = .ok (.sltiu 5 6 1#32) ∧ encode (.sltiu 5 6 1#32) = 0x00133293#32 := by decide

theorem test_word_xori : decode 0x55534293#32 = .ok (.xori 5 6 0x555#32) ∧ encode (.xori 5 6 0x555#32) = 0x55534293#32 := by decide

theorem test_word_ori : decode 0x0F036293#32 = .ok (.ori 5 6 0xF0#32) ∧ encode (.ori 5 6 0xF0#32) = 0x0F036293#32 := by decide

theorem test_word_andi : decode 0x0FF37293#32 = .ok (.andi 5 6 0xFF#32) ∧ encode (.andi 5 6 0xFF#32) = 0x0FF37293#32 := by decide

theorem test_word_slli : decode 0x00331293#32 = .ok (.slli 5 6 3#5) ∧ encode (.slli 5 6 3#5) = 0x00331293#32 := by decide

theorem test_word_srli : decode 0x00335293#32 = .ok (.srli 5 6 3#5) ∧ encode (.srli 5 6 3#5) = 0x00335293#32 := by decide

theorem test_word_srai : decode 0x40335293#32 = .ok (.srai 5 6 3#5) ∧ encode (.srai 5 6 3#5) = 0x40335293#32 := by decide

theorem test_word_lui : decode 0xABCDE2B7#32 = .ok (.lui 5 0xABCDE000#32) ∧ encode (.lui 5 0xABCDE000#32) = 0xABCDE2B7#32 := by decide

theorem test_word_auipc : decode 0x12345397#32 = .ok (.auipc 7 0x12345000#32) ∧ encode (.auipc 7 0x12345000#32) = 0x12345397#32 := by decide

theorem test_word_add : decode 0x002081B3#32 = .ok (.add 3 1 2) ∧ encode (.add 3 1 2) = 0x002081B3#32 := by decide

theorem test_word_sub : decode 0x402081B3#32 = .ok (.sub 3 1 2) ∧ encode (.sub 3 1 2) = 0x402081B3#32 := by decide

theorem test_word_sll : decode 0x002091B3#32 = .ok (.sll 3 1 2) ∧ encode (.sll 3 1 2) = 0x002091B3#32 := by decide

theorem test_word_slt : decode 0x0020A1B3#32 = .ok (.slt 3 1 2) ∧ encode (.slt 3 1 2) = 0x0020A1B3#32 := by decide

theorem test_word_sltu : decode 0x0020B1B3#32 = .ok (.sltu 3 1 2) ∧ encode (.sltu 3 1 2) = 0x0020B1B3#32 := by decide

theorem test_word_xor : decode 0x0020C1B3#32 = .ok (.xor 3 1 2) ∧ encode (.xor 3 1 2) = 0x0020C1B3#32 := by decide

theorem test_word_srl : decode 0x0020D1B3#32 = .ok (.srl 3 1 2) ∧ encode (.srl 3 1 2) = 0x0020D1B3#32 := by decide

theorem test_word_sra : decode 0x4020D1B3#32 = .ok (.sra 3 1 2) ∧ encode (.sra 3 1 2) = 0x4020D1B3#32 := by decide

theorem test_word_or : decode 0x0020E1B3#32 = .ok (.or 3 1 2) ∧ encode (.or 3 1 2) = 0x0020E1B3#32 := by decide

theorem test_word_and : decode 0x0020F1B3#32 = .ok (.and 3 1 2) ∧ encode (.and 3 1 2) = 0x0020F1B3#32 := by decide

theorem test_word_jal : decode 0xFF9FF0EF#32 = .ok (.jal 1 0xFFFFFFF8#32) ∧ encode (.jal 1 0xFFFFFFF8#32) = 0xFF9FF0EF#32 := by decide

theorem test_word_jalr : decode 0x004280E7#32 = .ok (.jalr 1 5 4#32) ∧ encode (.jalr 1 5 4#32) = 0x004280E7#32 := by decide

-- A word written bit by bit from R51's table, field by field: ADDI x5,x6,-1 as imm rs1 funct3 rd opcode.
theorem test_bits_addi : decodes (0b111111111111#12 ++ 0b00110#5 ++ 0b000#3 ++ 0b00101#5 ++ 0b0010011#7) =
    some (.addi 5 6 0xFFFFFFFF#32) := by decide

-- SRAI x6,x5,31: funct7 0100000, shamt 11111, rs1 00101, funct3 101, rd 00110 (V221).
theorem test_bits_srai : decodes (0b0100000#7 ++ 0b11111#5 ++ 0b00101#5 ++ 0b101#3 ++ 0b00110#5 ++ 0b0010011#7) =
    some (.srai 6 5 31#5) := by decide

-- LUI x5,0xABCDE: imm[31:12], rd 00101, opcode 0110111 (V201).
theorem test_bits_lui : decodes (0xABCDE#20 ++ 0b00101#5 ++ 0b0110111#7) = some (.lui 5 0xABCDE000#32) := by decide

-- SUB x3,x1,x2: funct7 0100000, rs2 00010, rs1 00001, funct3 000, rd 00011 (R135).
theorem test_bits_sub : decodes (0b0100000#7 ++ 0b00010#5 ++ 0b00001#5 ++ 0b000#3 ++ 0b00011#5 ++ 0b0110011#7) =
    some (.sub 3 1 2) := by decide

-- JAL x1,2048 has only off[11], word bit 20 (V212, V216); JALR x1,x0,-2048 (V212).
theorem test_bits_jal : decodes (0b0#1 ++ 0b0000000000#10 ++ 0b1#1 ++ 0b00000000#8 ++ 0b00001#5 ++ 0b1101111#7) =
    some (.jal 1 0x00000800#32) := by decide

theorem test_bits_jalr : decodes (0b100000000000#12 ++ 0b00000#5 ++ 0b000#3 ++ 0b00001#5 ++ 0b1100111#7) =
    some (.jalr 1 0 0xFFFFF800#32) := by decide

-- each group of the J offset (V212)
theorem test_jal_scatter : decodes 0x800000EF#32 = some (.jal 1 0xFFF00000#32) ∧ decodes 0x7FFFF0EF#32 = some (.jal 1 0x000FFFFE#32) ∧
    decodes 0x000010EF#32 = some (.jal 1 0x00001000#32) ∧ decodes 0x000800EF#32 = some (.jal 1 0x00080000#32) ∧
    decodes 0x002000EF#32 = some (.jal 1 0x00000002#32) ∧ decodes 0x400000EF#32 = some (.jal 1 0x00000400#32) := by decide

-- unread bits (V212)
theorem test_unread_bits : decodes 0x40331293#32 = some (.slli 5 6 3#5) ∧ decodes 0xC0335293#32 = some (.srai 5 6 3#5) ∧
    decodes 0xBE335293#32 = some (.srli 5 6 3#5) ∧ decodes 0x022081B3#32 = some (.add 3 1 2) ∧
    decodes 0xFE2081B3#32 = some (.sub 3 1 2) ∧ decodes 0x402091B3#32 = some (.sll 3 1 2) := by decide

-- unrecognised words (V212)
theorem test_unrecognised : decode 0x00000000#32 = .error .unknownOpcode ∧ decode 0xFFFFFFFF#32 = .error .unknownOpcode ∧
    decode 0x00029067#32 = .error .jalrFunct3 ∧ decode 0x0002F0E7#32 = .error .jalrFunct3 ∧
    decode 0x00002003#32 = .error .unknownOpcode ∧ decode 0x00532023#32 = .error .unknownOpcode ∧
    decode 0x00000063#32 = .error .unknownOpcode ∧ decode 0x0000000F#32 = .error .unknownOpcode ∧
    decode 0x00000073#32 = .error .unknownOpcode ∧ decode 0x00000012#32 = .error .unknownOpcode := by decide

-- the bits of a row, in bytes; bits above nbits are zero
theorem test_table_word : decodeTableWord 32 0x40335293 = some (.srai 5 6 3#5) ∧ decodeTableWord 32 0 = none ∧
    decodeTableWord 7 0xFFFFFF93 = some (.addi 0 0 0#32) := by decide

theorem test_truncated : decodeBytes [0x93#8, 0x00#8, 0x50#8] = .error .truncated := by decide

/-! ### One step of each instruction (V213 to V217) -/

theorem test_step_addi_wraps : afterStep (stateAt 0x100#32 0x00130293 [(6, 0xFFFFFFFF#32)]) 5 = some (0x00000000#32, 0x104#32, none) := by decide

theorem test_step_addi_rd_is_rs1 : afterStep (stateAt 0x100#32 0xFFF28293 [(5, 1#32)]) 5 = some (0x00000000#32, 0x104#32, none) := by decide

theorem test_step_slti_most_negative : afterStep (stateAt 0x100#32 0x80032293 [(6, 0x80000000#32)]) 5 = some (1#32, 0x104#32, none) := by decide

theorem test_step_slti_positive : afterStep (stateAt 0x100#32 0x7FF32293 [(6, 0x7FFFFFFF#32)]) 5 = some (0#32, 0x104#32, none) := by decide

theorem test_step_sltiu_sign_extends_first : afterStep (stateAt 0x100#32 0x80033293 [(6, 0xFFFFF7FF#32)]) 5 = some (1#32, 0x104#32, none) := by decide

theorem test_step_sltiu_unsigned : afterStep (stateAt 0x100#32 0x7FF33293 [(6, 0x80000000#32)]) 5 = some (0#32, 0x104#32, none) := by decide

theorem test_step_xori_sign_extends : afterStep (stateAt 0x100#32 0x80034293 [(6, 0#32)]) 5 = some (0xFFFFF800#32, 0x104#32, none) := by decide

theorem test_step_ori : afterStep (stateAt 0x100#32 0x0F036293 [(6, 0x0000F00F#32)]) 5 = some (0x0000F0FF#32, 0x104#32, none) := by decide

theorem test_step_andi : afterStep (stateAt 0x100#32 0x80037293 [(6, 0xDEADBEEF#32)]) 5 = some (0xDEADB800#32, 0x104#32, none) := by decide

theorem test_step_slli_31 : afterStep (stateAt 0x100#32 0x01F31293 [(6, 1#32)]) 5 = some (0x80000000#32, 0x104#32, none) := by decide

theorem test_step_slli_bit_30_ignored : afterStep (stateAt 0x100#32 0x40331293 [(6, 1#32)]) 5 = some (8#32, 0x104#32, none) := by decide

theorem test_step_srli_zero_in : afterStep (stateAt 0x100#32 0x00135293 [(6, 0x80000001#32)]) 5 = some (0x40000000#32, 0x104#32, none) := by decide

theorem test_step_srai_sign_in : afterStep (stateAt 0x100#32 0x40435293 [(6, 0xF2345678#32)]) 5 = some (0xFF234567#32, 0x104#32, none) := by decide

theorem test_step_srai_positive : afterStep (stateAt 0x100#32 0x40435293 [(6, 0x72345678#32)]) 5 = some (0x07234567#32, 0x104#32, none) := by decide

theorem test_step_lui : afterStep (stateAt 0x40#32 0x800002B7 [(5, 0x55555555#32)]) 5 = some (0x80000000#32, 0x44#32, none) := by decide

theorem test_step_auipc_own_address : afterStep (stateAt 0x1234#32 0xFFFFF297 [(5, 0x55555555#32)]) 5 = some (0x00000234#32, 0x1238#32, none) := by decide

theorem test_step_auipc_unaligned : afterStep (stateAt 0x1001#32 0xFFFFF297 []) 5 = some (0x00000001#32, 0x1005#32, none) := by decide

theorem test_step_add_wraps : afterStep (stateAt 0x100#32 0x007302B3 [(6, 0xFFFFFFFF#32), (7, 1#32)]) 5 = some (0#32, 0x104#32, none) := by decide

theorem test_step_add_mul_word : afterStep (stateAt 0x100#32 0x022081B3 [(1, 6#32), (2, 7#32)]) 3 = some (0x0000000D#32, 0x104#32, none) := by decide

theorem test_step_sub_operand_order : afterStep (stateAt 0x100#32 0x407302B3 [(6, 5#32), (7, 3#32)]) 5 = some (2#32, 0x104#32, none) := by decide

theorem test_step_sub_wraps : afterStep (stateAt 0x100#32 0x407302B3 [(6, 0#32), (7, 1#32)]) 5 = some (0xFFFFFFFF#32, 0x104#32, none) := by decide

theorem test_step_sll_low_five_bits : afterStep (stateAt 0x100#32 0x007312B3 [(6, 0xDEADBEEF#32), (7, 0xFFFFFFE4#32)]) 5 = some (0xEADBEEF0#32, 0x104#32, none) := by decide

theorem test_step_sll_32_copies : afterStep (stateAt 0x100#32 0x007312B3 [(6, 1#32), (7, 0x20#32)]) 5 = some (1#32, 0x104#32, none) := by decide

theorem test_step_slt_signed : afterStep (stateAt 0x100#32 0x007322B3 [(6, 0x80000000#32), (7, 0x7FFFFFFF#32)]) 5 = some (1#32, 0x104#32, none) := by decide

theorem test_step_slt_reverse : afterStep (stateAt 0x100#32 0x007322B3 [(6, 0#32), (7, 0xFFFFFFFF#32)]) 5 = some (0#32, 0x104#32, none) := by decide

theorem test_step_sltu_unsigned : afterStep (stateAt 0x100#32 0x007332B3 [(6, 0#32), (7, 0xFFFFFFFF#32)]) 5 = some (1#32, 0x104#32, none) := by decide

theorem test_step_sltu_reverse : afterStep (stateAt 0x100#32 0x007332B3 [(6, 0x80000000#32), (7, 0x7FFFFFFF#32)]) 5 = some (0#32, 0x104#32, none) := by decide

theorem test_step_xor : afterStep (stateAt 0x100#32 0x007342B3 [(6, 0xFF00FF00#32), (7, 0x0FF00FF0#32)]) 5 = some (0xF0F0F0F0#32, 0x104#32, none) := by decide

theorem test_step_srl_low_five_bits : afterStep (stateAt 0x100#32 0x007352B3 [(6, 0xFFFFFFFF#32), (7, 0x3F#32)]) 5 = some (1#32, 0x104#32, none) := by decide

theorem test_step_sra_low_five_bits : afterStep (stateAt 0x100#32 0x407352B3 [(6, 0xDEADBEEF#32), (7, 0xFFFFFFE4#32)]) 5 = some (0xFDEADBEE#32, 0x104#32, none) := by decide

theorem test_step_or : afterStep (stateAt 0x100#32 0x007362B3 [(6, 0xFF00FF00#32), (7, 0x0FF00FF0#32)]) 5 = some (0xFFF0FFF0#32, 0x104#32, none) := by decide

theorem test_step_and : afterStep (stateAt 0x100#32 0x007372B3 [(6, 0xFF00FF00#32), (7, 0x0FF00FF0#32)]) 5 = some (0x0F000F00#32, 0x104#32, none) := by decide

theorem test_step_jal_not_doubled : afterStep (stateAt 0x100#32 0x010000EF []) 1 = some (0x104#32, 0x110#32, none) := by decide

theorem test_step_jal_wraps_below_zero : afterStep (stateAt 0x100#32 0xEFDFF0EF []) 1 = some (0x104#32, 0xFFFFFFFC#32, none) := by decide

theorem test_step_jalr_clears_bit_0 : afterStep (stateAt 0x100#32 0xFFF280E7 [(5, 0x204#32)]) 1 = some (0x104#32, 0x202#32, none) := by decide

theorem test_step_jalr_rd_is_rs1 : afterStep (stateAt 0x100#32 0x008282E7 [(5, 0x300#32)]) 5 = some (0x104#32, 0x308#32, none) := by decide

-- JAL x0, 8 from 0: the link is dropped, the jump taken (V216)
theorem test_x0_write_discarded : afterStep (stateAt 0#32 0x0080006F []) 0 = some (0#32, 8#32, none) := by decide

/-! ### Faults and fetch (V211) -/

-- pc 0, memory all zero
theorem test_reset_word_is_illegal : afterStep State.reset 0 = some (0#32, 0#32, some ⟨.illegalInstruction, 0#32, some 0#32⟩) := by decide

theorem test_last_word_is_in_bounds : afterStep (startRun 0xFFFC#32 State.reset) 0 = some (0#32, 0xFFFC#32, some ⟨.illegalInstruction, 0xFFFC#32, some 0#32⟩) := by decide

theorem test_fetch_out_of_bounds : afterStep (startRun 0xFFFD#32 State.reset) 0 = some (0#32, 0xFFFD#32, some ⟨.outOfBounds, 0xFFFD#32, none⟩) ∧
    afterStep (startRun 0xFFFFFFFF#32 State.reset) 0 = some (0#32, 0xFFFFFFFF#32, some ⟨.outOfBounds, 0xFFFFFFFF#32, none⟩) := by decide

theorem test_odd_address_runs : afterStep (stateAt 1#32 0x00500093 []) 1 = some (5#32, 5#32, none) := by decide

-- R162
theorem test_fault_codes : [FaultCause.outOfBounds, .illegalInstruction, .unimplementedInstruction].map FaultCause.code = [1, 2, 3] := by decide

-- bounded N = 2 on the reset state (V229)
theorem test_bounded_stops_at_fault : runBounded 0#32 2 State.reset =
    { final := { State.reset with fault := some ⟨.illegalInstruction, 0#32, some 0#32⟩ }, outcomes := [.failed .illegalInstruction] } := by decide

-- halt set before the first cycle (V229)
theorem test_unbounded_halted_at_once : runUnbounded 0x40#32 [true, false] State.reset =
    (.ended, { final := { State.reset with halt := true, pc := 0x40#32 }, outcomes := [] }) := by decide

/-! ### Memory (V210) -/

theorem test_write_word_unaligned : memWriteWord [] 5#32 0xCAFEF00D#32 = .ok [(5, 0x0D#8), (6, 0xF0#8), (7, 0xFE#8), (8, 0xCA#8)] ∧
    memReadWord [(5, 0x0D#8), (6, 0xF0#8), (7, 0xFE#8), (8, 0xCA#8)] 4#32 = .ok 0xFEF00D00#32 ∧
    memReadWord [(5, 0x0D#8), (6, 0xF0#8), (7, 0xFE#8), (8, 0xCA#8)] 8#32 = .ok 0x000000CA#32 := by decide

theorem test_write_out_of_bounds : memWriteWord [] 65534#32 0xAABBCCDD#32 = .error .outOfBounds ∧ memWriteByte [] 65536#32 1#8 = .error .outOfBounds ∧
    memReadByte [] 65535#32 = .ok 0#8 ∧ memReadByte [] 65536#32 = .error .outOfBounds := by decide

theorem test_zero_is_not_listed : memWriteByte [(2, 1#8)] 2#32 0#8 = .ok [] := by decide

/-! ### The hypotheses of the statements can be met: one witness for each clause, at a boundary where there is one -/

theorem test_witness_ResetLeavesEverythingZero : (65535#32).toNat < 65536 := by decide

theorem test_witness_WordReadIsItsFourBytes : (65532#32).toNat + 3 < 65536 ∧ 3 < 4 := by decide

theorem test_witness_ReadsAreBoundsCheckedWithoutWrap : memReadWord [] 65533#32 = .error .outOfBounds ∧ memReadWord [] 65532#32 = .ok 0#32 ∧ memReadByte [] 65536#32 = .error .outOfBounds := by decide

theorem test_witness_ByteWriteChangesOneByte : Memory.wf [(1, 1#8)] ∧ (65536#32).toNat ≥ 65536 ∧ (65535#32).toNat < 65536 := by decide

theorem test_witness_WordWriteStoresFourBytesOrNothing : Memory.wf [(1, 1#8)] ∧ (65533#32).toNat + 3 ≥ 65536 ∧ (65532#32).toNat + 3 < 65536 := by decide

theorem test_witness_WordWriteReadsBackAtBothWidths : Memory.wf [] ∧ memWriteWord [] 65532#32 0xFF000001#32 = .ok [(65532, 1#8), (65535, 0xFF#8)] ∧
    ({ State.reset with mem := [(65532, 1#8), (65535, 0xFF#8)], pc := 65532#32 } : State).pc = 65532#32 := by decide

theorem test_witness_LoaderWordWriteSetsOnlyMemoryOrFails : State.reset.mem.wf ∧ (65533#32).toNat + 3 ≥ 65536 ∧ (65532#32).toNat + 3 < 65536 := by decide

theorem test_witness_RegisterZeroIsHardwired : (31 : Reg) ≠ 0 ∧ (Instr.addi 0 1 5#32).rd = 0 ∧ (Instr.addi 0 1 5#32).isJump = false ∧ (Instr.jal 0 8#32).rd = 0 ∧
    (Instr.jalr 0 1 8#32).rd = 0 := by decide

-- the last clause: a seed of x31 before seeds of x1 and x30
theorem test_witness_SeedingWritesOnlyItsRegisters : (3 : Reg) ∉ [((1 : Reg), 5#32), (2, 7#32)].map Prod.fst ∧ (31 : Reg) ≠ 0 ∧
    (31 : Reg) ∉ [((1 : Reg), 5#32), (30, 7#32)].map Prod.fst := by decide

theorem test_witness_FieldSlicesOfRIUFormats : 6 < 7 ∧ 4 < 5 ∧ 2 < 3 ∧ 10 < 11 ∧ 11 ≤ 31 ∧ 31 < 32 := by decide

theorem test_witness_JumpOffsetAssembly : 1 ≤ 10 ∧ 12 ≤ 19 ∧ 20 ≤ 31 ∧ 31 < 32 := by decide

theorem test_witness_DecodedWordLiesInItsTableRow : decode 0x40335293#32 = .ok (.srai 5 6 3#5) := by decide

theorem test_witness_UnrecognisedExactlyOutsideTheMap : (0x00000000#32).toNat % 128 = 0 ∧ (0x00029067#32).toNat % 128 = 0b1100111 ∧ (0x00029067#32).toNat / 4096 % 8 ≠ 0 ∧
    (0x00000012#32).toNat % 4 ≠ 3 := by decide

theorem test_witness_UnreadBitsChangeNothing : (0x802081B3#32 &&& 0x41FFFFFF#32 = 0x002081B3#32 &&& 0x41FFFFFF#32 ∧ 0x802081B3#32 &&& 0x7F#32 = 0x33#32) ∧
    (0xC0335293#32 &&& 0x41FFFFFF#32 = 0x40335293#32 &&& 0x41FFFFFF#32 ∧ 0xC0335293#32 &&& 0x707F#32 = 0x5013#32) ∧
    (0x402091B3#32 &&& 0x01FFFFFF#32 = 0x002091B3#32 &&& 0x01FFFFFF#32 ∧ 0x402091B3#32 &&& 0x7F#32 = 0x33#32 ∧
      0x402091B3#32 &&& 0x7000#32 ≠ 0x0000#32 ∧ 0x402091B3#32 &&& 0x7000#32 ≠ 0x5000#32) ∧
    (0x40331293#32 &&& 0x01FFFFFF#32 = 0x00331293#32 &&& 0x01FFFFFF#32 ∧ 0x40331293#32 &&& 0x707F#32 = 0x1013#32) := by decide

theorem test_witness_DecodeOfEncodeIsTheInstruction : (Instr.addi 31 31 0xFFFFF800#32).wf = true ∧ (Instr.jal 31 0xFFF00000#32).wf = true ∧ (Instr.lui 31 0xFFFFF000#32).wf = true ∧
    (Instr.sra 31 31 31).wf = true := by decide

theorem test_witness_FourBytesDecodeAsTheirWord : decode 0x00500093#32 = .ok (.addi 1 0 5#32) ∧ decode 0#32 = .error .unknownOpcode ∧ [0#8, 0#8, 0#8].length < 4 := by decide

-- Each row's DecodesRow hypothesis: a word of the row, non-canonical where the row has unread bits.
theorem test_witness_rows :
    0x80030293#32 &&& 0x0000707F#32 = 0x00000013#32 ∧
    0xFFF32293#32 &&& 0x0000707F#32 = 0x00002013#32 ∧
    0x00133293#32 &&& 0x0000707F#32 = 0x00003013#32 ∧
    0x55534293#32 &&& 0x0000707F#32 = 0x00004013#32 ∧
    0x0F036293#32 &&& 0x0000707F#32 = 0x00006013#32 ∧
    0x0FF37293#32 &&& 0x0000707F#32 = 0x00007013#32 ∧
    0x40331293#32 &&& 0x0000707F#32 = 0x00001013#32 ∧
    0xBE335293#32 &&& 0x4000707F#32 = 0x00005013#32 ∧
    0xC0335293#32 &&& 0x4000707F#32 = 0x40005013#32 ∧
    0xABCDE2B7#32 &&& 0x0000007F#32 = 0x00000037#32 ∧
    0x12345397#32 &&& 0x0000007F#32 = 0x00000017#32 ∧
    0x022081B3#32 &&& 0x4000707F#32 = 0x00000033#32 ∧
    0xFE2081B3#32 &&& 0x4000707F#32 = 0x40000033#32 ∧
    0x402091B3#32 &&& 0x0000707F#32 = 0x00001033#32 ∧
    0x4020A1B3#32 &&& 0x0000707F#32 = 0x00002033#32 ∧
    0x0020B1B3#32 &&& 0x0000707F#32 = 0x00003033#32 ∧
    0x0220C1B3#32 &&& 0x0000707F#32 = 0x00004033#32 ∧
    0x0220D1B3#32 &&& 0x4000707F#32 = 0x00005033#32 ∧
    0x4220D1B3#32 &&& 0x4000707F#32 = 0x40005033#32 ∧
    0x0020E1B3#32 &&& 0x0000707F#32 = 0x00006033#32 ∧
    0x0020F1B3#32 &&& 0x0000707F#32 = 0x00007033#32 ∧
    0xFF9FF0EF#32 &&& 0x0000007F#32 = 0x0000006F#32 ∧
    0x004280E7#32 &&& 0x0000707F#32 = 0x00000067#32 := by decide

theorem test_witness_EveryInstructionCommitsOnlyRdAndPc : (Instr.addi 1 2 3#32).isJump = false := by decide

-- Two states that differ in a register ADD does not read.
theorem test_witness_ResultsDependOnSourcesAndPcOnly :
    ∃ t t', (∀ r ∈ (Instr.add 3 1 2).sources, (stateAt 0#32 0 [(1, 6#32)]).readReg r = (stateAt 0#32 0 [(1, 6#32), (9, 1#32)]).readReg r) ∧
      (stateAt 0#32 0 [(1, 6#32)]).pc = (stateAt 0#32 0 [(1, 6#32), (9, 1#32)]).pc ∧
      exec (.add 3 1 2) (stateAt 0#32 0 [(1, 6#32)]) = .next t ∧ exec (.add 3 1 2) (stateAt 0#32 0 [(1, 6#32), (9, 1#32)]) = .next t' :=
  ⟨_, _, by decide, by decide, rfl, rfl⟩

-- the last word of the store (V225); also TracerSeesEachDecodedInstruction's first clause
theorem test_witness_StepRunsTheDecodedInstruction : (stateAt 0xFFFC#32 0x00108093 []).fault = none ∧
    memReadWord (stateAt 0xFFFC#32 0x00108093 []).mem (stateAt 0xFFFC#32 0x00108093 []).pc = .ok 0x00108093#32 ∧
    decode 0x00108093#32 = .ok (.addi 1 1 1#32) := by decide

theorem test_witness_FetchBeyondTheStoreFaults : (startRun 0xFFFD#32 State.reset).fault = none ∧ (startRun 0xFFFD#32 State.reset).pc.toNat + 3 ≥ 65536 := by decide

-- also NopPolicyAdvancesOverUnrecognisedWord
theorem test_witness_UnrecognisedWordRaisesIllegalInstruction : (stateAt 0x100#32 0x00029067 []).fault = none ∧
    memReadWord (stateAt 0x100#32 0x00029067 []).mem (stateAt 0x100#32 0x00029067 []).pc = .ok 0x00029067#32 ∧
    decode 0x00029067#32 = .error .jalrFunct3 := by decide

-- Both causes, and the policy NOP with a fetch out of bounds.
theorem test_witness_RaisingCycleChangesOnlyTheRecord :
    (∃ t r, cycleUnder .fault State.reset = .next t ∧ t.fault = some r ∧ r.cause = .illegalInstruction) ∧
    (∃ t r, cycleUnder .nop (startRun 0xFFFD#32 State.reset) = .next t ∧ t.fault = some r ∧ r.cause = .outOfBounds) :=
  ⟨⟨_, _, rfl, rfl, rfl⟩, ⟨_, _, rfl, rfl, rfl⟩⟩

theorem test_witness_FaultedMachineExecutesNoCycle :
    (State.reset.takeFault .outOfBounds none).fault = some ⟨.outOfBounds, 0#32, none⟩ := by decide

theorem test_witness_EveryCycleCommitsOrFaults :
    (stateAt 0#32 0x00500093 []).fault = none ∧ outcomeOf (stateAt 0#32 0x00500093 []) = .continued ∧
    outcomeOf (State.reset.takeFault .outOfBounds none) = .failed .outOfBounds := by decide

-- A state that meets the invariant and steps; the second has the record of its own fault.
theorem test_witness_StepKeepsTheInvariant :
    (stateAt 2#32 0x00500093 []).Inv ∧ ∃ t, step (stateAt 2#32 0x00500093 []) = .next t :=
  ⟨⟨by decide, by decide, by intro r h; cases h⟩, _, rfl⟩

theorem test_witness_invariant_of_faulted_state :
    ((startRun 0xFFFD#32 State.reset).takeFault .outOfBounds none).Inv :=
  ⟨by decide, by decide, by intro r h; cases h; exact ⟨rfl, .inl ⟨rfl, rfl, by decide⟩⟩⟩

theorem test_witness_HostPreparationMeetsTheInvariant :
    (stateAt 2#32 0x00500093 []).Inv ∧ (stateAt 2#32 0x00500093 []).fault = none ∧
    (∃ t, loadWord 0xFFFC#32 1#32 (stateAt 2#32 0x00500093 []) = .ok t) ∧
    (∃ t, loadByte 0xFFFF#32 1#8 (stateAt 2#32 0x00500093 []) = .ok t) :=
  ⟨⟨by decide, by decide, by intro r h; cases h⟩, rfl, ⟨_, rfl⟩, ⟨_, rfl⟩⟩

theorem test_witness_EvenPcStaysEven :
    (stateAt 2#32 0x00500093 []).pc.toNat % 2 = 0 ∧ ∃ t, step (stateAt 2#32 0x00500093 []) = .next t :=
  ⟨by decide, _, rfl⟩

theorem test_witness_RunNeverChangesMemoryOrHalt : ∃ t, core.run 1 (stateAt 2#32 0x00500093 []) = .next t := ⟨_, rfl⟩

-- A first cycle that commits, and a first cycle that fails.
theorem test_witness_BoundedRunStopsAtFirstFailure_cycles :
    (∃ t, cycleUnder .fault (stateAt 0#32 0x00500093 []) = .next t ∧ t.fault = none) ∧
    (∃ t r, cycleUnder .fault State.reset = .next t ∧ t.fault = some r) :=
  ⟨⟨_, rfl, rfl⟩, _, _, rfl, rfl⟩

theorem test_witness_BoundedRunStopsAtFirstFailure :
    (stateAt 0#32 0x00500093 []).fault = none ∧
    (runBoundedUnder .fault 1 (stateAt 0#32 0x00500093 [])).outcomes = [.continued] ∧
    (runBoundedUnder .fault 1 State.reset).outcomes = [.failed .illegalInstruction] := by decide

-- An ended run, halt already set, a fault before the first test, and a first cycle that answers a next state.
theorem test_witness_UnboundedRunEndsOnlyByHaltOrFault :
    (runUnboundedUnder .fault [true] State.reset).1 = .ended ∧
    (hostWriteHalt true State.reset).halt = true ∧
    (State.reset.takeFault .outOfBounds none).fault ≠ none ∧
    (stateAt 0#32 0x00500093 []).halt = false ∧ ∃ t, cycleUnder .fault (stateAt 0#32 0x00500093 []) = .next t :=
  ⟨by decide, rfl, by decide, rfl, _, rfl⟩

/-- `JAL x0, 0` at address 0 jumps to itself (R151). -/
def selfLoop : State := stateAt 0#32 0x0000006F []

theorem selfLoop_step : core.step selfLoop = .next selfLoop := rfl

theorem selfLoop_run (n : Nat) : core.run n selfLoop = .next selfLoop := by
  induction n with
  | zero => rfl
  | succ n ih => simp only [Host.Core.run, selfLoop_step]; exact ih

theorem test_witness_LongFaultFreeRunRevisitsAnAddress : RunsCleanly 65534 selfLoop selfLoop :=
  ⟨selfLoop_run 65534, rfl⟩

-- The cases in which the tracer sees nothing: a recorded fault, a failing fetch, an unrecognised word.
theorem test_witness_TracerSeesEachDecodedInstruction :
    (State.reset.takeFault .outOfBounds none).fault ≠ none ∧
    memReadWord (startRun 0xFFFD#32 State.reset).mem (startRun 0xFFFD#32 State.reset).pc = .error .outOfBounds ∧
    memReadWord State.reset.mem State.reset.pc = .ok 0#32 ∧ decode 0#32 = .error .unknownOpcode := by decide

-- The operands and the result that the tracer is given for SUB x5,x6,x7 (V215, R92).
theorem test_trace_sub :
    traceOf (stateAt 0x100#32 0x407302B3 [(6, 5#32), (7, 3#32)]) =
      some { curPc := 0x100#32, inst := 0x407302B3#32, mnemonic := "SUB", instr := .sub 5 6 7,
             operands := [5#32, 3#32], result := 2#32 } := by decide

/-! ### Pseudo-instructions (R71's canonical words) -/

theorem test_pseudo_li : (expandPseudo (.li 5 0x12345678#32)).map encode = [0x123452B7#32, 0x67828293#32] ∧
    (expandPseudo (.li 5 0xDEADBEEF#32)).map encode = [0xDEADC2B7#32, 0xEEF28293#32] := by decide

theorem test_pseudo_call : (expandPseudo (.call 4092#32)).map encode = [0x00001097#32, 0xFFC080E7#32] ∧
    (expandPseudo (.tail 4092#32)).map encode = [0x00001317#32, 0xFFC30067#32] := by decide

theorem test_pseudo_words :
    ([.nop, .mv 5 6, .not 5 6, .neg 5 6, .seqz 5 6, .snez 5 6, .sltz 5 6, .sgtz 5 6].flatMap expandPseudo).map encode =
      [0x00000013#32, 0x00030293#32, 0xFFF34293#32, 0x406002B3#32, 0x00133293#32, 0x006032B3#32, 0x000322B3#32, 0x006022B3#32] ∧
    ([.j 16#32, .jalOff 16#32, .jr 6, .jalrReg 6, .ret].flatMap expandPseudo).map encode =
      [0x0100006F#32, 0x010000EF#32, 0x00030067#32, 0x000300E7#32, 0x00008067#32] := by decide

theorem test_abi_names : [abiName 0, abiName 1, abiName 8, abiName 10, abiName 17, abiName 18, abiName 27, abiName 28, abiName 31] =
    ["zero", "ra", "s0", "a0", "a7", "s2", "s11", "t3", "t6"] := by decide

end Sys2Proof.Tests
end

section
/-! PROOFS. The laws that the statements about the state need, and the proofs of those statements (10_state.md). -/

namespace Sys2Proof.Machine

/-! ### What an instruction writes, as a function of the state -/

/-- The value an instruction commits to its destination (10_state.md R12); `exec_eq` ties it to `exec`. -/
def resultOf (s : State) : Instr → Word
  | .addi _ rs1 imm => aluAdd (s.readReg rs1) imm
  | .slti _ rs1 imm => aluSlt (s.readReg rs1) imm
  | .sltiu _ rs1 imm => aluSltu (s.readReg rs1) imm
  | .xori _ rs1 imm => aluXor (s.readReg rs1) imm
  | .ori _ rs1 imm => aluOr (s.readReg rs1) imm
  | .andi _ rs1 imm => aluAnd (s.readReg rs1) imm
  | .slli _ rs1 n => aluSll (s.readReg rs1) n
  | .srli _ rs1 n => aluSrl (s.readReg rs1) n
  | .srai _ rs1 n => aluSra (s.readReg rs1) n
  | .lui _ imm => imm
  | .auipc _ imm => aluAdd s.pc imm
  | .add _ rs1 rs2 => aluAdd (s.readReg rs1) (s.readReg rs2)
  | .sub _ rs1 rs2 => aluSub (s.readReg rs1) (s.readReg rs2)
  | .sll _ rs1 rs2 => aluSll (s.readReg rs1) (shamtOfReg (s.readReg rs2))
  | .slt _ rs1 rs2 => aluSlt (s.readReg rs1) (s.readReg rs2)
  | .sltu _ rs1 rs2 => aluSltu (s.readReg rs1) (s.readReg rs2)
  | .xor _ rs1 rs2 => aluXor (s.readReg rs1) (s.readReg rs2)
  | .srl _ rs1 rs2 => aluSrl (s.readReg rs1) (shamtOfReg (s.readReg rs2))
  | .sra _ rs1 rs2 => aluSra (s.readReg rs1) (shamtOfReg (s.readReg rs2))
  | .or _ rs1 rs2 => aluOr (s.readReg rs1) (s.readReg rs2)
  | .and _ rs1 rs2 => aluAnd (s.readReg rs1) (s.readReg rs2)
  | .jal _ _ | .jalr _ _ _ => s.nextPc

/-- `exec_commits` with its value named: the whole meaning of every instruction in one equation. -/
theorem exec_eq (i : Instr) (s : State) :
    exec i s = .next ((s.writeReg i.rd (resultOf s i)).setPc (targetOf s i)) := by
  cases i <;> rfl

theorem nextPc_congr {s s' : State} (hpc : s.pc = s'.pc) : s.nextPc = s'.nextPc :=
  congrArg (· + 4#32) hpc

section
variable {s s' : State} (hpc : s.pc = s'.pc)
include hpc

/-- The written value is a function of the source registers and the pc (R12). -/
theorem resultOf_congr (i : Instr) (hsrc : ∀ r ∈ i.sources, s.readReg r = s'.readReg r) :
    resultOf s i = resultOf s' i := by
  cases i with
  | lui => rfl
  | auipc | jal | jalr => simp only [resultOf, hpc, nextPc_congr hpc]
  | addi _ rs1 | slti _ rs1 | sltiu _ rs1 | xori _ rs1 | ori _ rs1 | andi _ rs1
  | slli _ rs1 | srli _ rs1 | srai _ rs1 =>
    simp only [resultOf, hsrc rs1 (by simp [Instr.sources])]
  | add _ rs1 rs2 | sub _ rs1 rs2 | sll _ rs1 rs2 | slt _ rs1 rs2 | sltu _ rs1 rs2
  | xor _ rs1 rs2 | srl _ rs1 rs2 | sra _ rs1 rs2 | or _ rs1 rs2 | and _ rs1 rs2 =>
    simp only [resultOf, hsrc rs1 (by simp [Instr.sources]), hsrc rs2 (by simp [Instr.sources])]

/-- The new pc is a function of the source registers and the pc (R15). -/
theorem targetOf_congr (i : Instr) (hsrc : ∀ r ∈ i.sources, s.readReg r = s'.readReg r) :
    targetOf s i = targetOf s' i := by
  cases i with
  | jal => simp only [targetOf, jalTarget, hpc]
  | jalr _ rs1 => simp only [targetOf, jalrTarget, hsrc rs1 (by simp [Instr.sources])]
  | _ => exact nextPc_congr hpc

end

/-- Every instruction but JAL and JALR goes on to the next address (R15, 40_fetch_cycle.md R83). -/
theorem targetOf_of_not_isJump {i : Instr} (s : State) (hi : i.isJump = false) : targetOf s i = s.pc + 4#32 := by
  cases i with
  | jal | jalr => cases hi
  | _ => rfl

/-- What one commit leaves unchanged: everything but `x[rd]` and the pc. -/
theorem commitsTo_of_exec_eq {i : Instr} {s : State} {rd : Reg} {v target : Word}
    (h : exec i s = .next ((s.writeReg rd v).setPc target)) : CommitsTo i s rd v target :=
  ⟨_, h, fun r => writeReg_readReg s rd r v, rfl, by simp, by simp, by simp⟩

@[simp] theorem writeReg_zero (s : State) (v : Word) : s.writeReg 0 v = s := rfl

/-! ### Reset -/

theorem reset_readReg (r : Reg) : State.reset.readReg r = 0#32 := by
  unfold State.readReg State.reset
  split
  · rfl
  · simp [Vector.get]

/-! ### The halt flag -/

@[simp] theorem hostWriteHalt_pc (b : Bool) (s : State) : (hostWriteHalt b s).pc = s.pc := rfl
@[simp] theorem hostWriteHalt_readReg (b : Bool) (s : State) (r : Reg) :
    (hostWriteHalt b s).readReg r = s.readReg r := rfl

theorem writeReg_hostWriteHalt (b : Bool) (s : State) (r : Reg) (v : Word) :
    (hostWriteHalt b s).writeReg r v = hostWriteHalt b (s.writeReg r v) := by
  unfold State.writeReg
  split <;> rfl

/-- An instruction neither reads nor writes `halt` (R17). -/
theorem exec_hostWriteHalt (b : Bool) (i : Instr) (s : State) :
    exec i (hostWriteHalt b s) = mapNext (hostWriteHalt b) (exec i s) := by
  rw [exec_eq, exec_eq, resultOf_congr (hostWriteHalt_pc b s) i fun r _ => hostWriteHalt_readReg b s r,
    targetOf_congr (hostWriteHalt_pc b s) i fun r _ => hostWriteHalt_readReg b s r, writeReg_hostWriteHalt]
  rfl

theorem runWord_hostWriteHalt (p : IllegalPolicy) (w : Word) (b : Bool) (s : State) :
    runWord p w (hostWriteHalt b s) = mapNext (hostWriteHalt b) (runWord p w s) := by
  unfold runWord
  cases decode w with
  | ok i => exact exec_hostWriteHalt b i s
  | error => cases p <;> rfl

/-- A cycle neither reads nor writes `halt`, under either policy (R17, 40_fetch_cycle.md R90). -/
theorem cycleUnder_hostWriteHalt (p : IllegalPolicy) (b : Bool) (s : State) :
    cycleUnder p (hostWriteHalt b s) = mapNext (hostWriteHalt b) (cycleUnder p s) := by
  unfold cycleUnder
  simp only [fetch_eq, hostWriteHalt_fault, hostWriteHalt_mem, hostWriteHalt_pc]
  cases s.fault with
  | some => rfl
  | none =>
    cases memReadWord s.mem s.pc with
    | error => rfl
    | ok w => exact runWord_hostWriteHalt p w b s

/-! ### The invariant -/

theorem faultTrue_of_none {s : State} (h : s.fault = none) : FaultTrue s :=
  fun r hr => by rw [h] at hr; cases hr

/-- An instruction keeps the invariant: it touches neither memory, nor slot 0, nor the (absent) record. -/
theorem exec_inv {i : Instr} {s t : State} (hf : s.fault = none) (hs : s.Inv) (h : exec i s = .next t) : t.Inv := by
  obtain ⟨hmem, hzero, -⟩ := hs
  rw [exec_eq] at h
  cases h
  refine ⟨?_, ?_, faultTrue_of_none ?_⟩
  · simpa using hmem
  · rw [setPc_regs, writeReg_slot_zero, hzero]
  · simpa using hf

/-- Fault entry keeps the invariant where the record it writes is truthful (60_exceptions.md R166). -/
theorem takeFault_inv {s : State} {c : FaultCause} {w : Option Word} (hs : s.Inv)
    (h : FaultTrue (s.takeFault c w)) : (s.takeFault c w).Inv := by
  obtain ⟨hmem, hzero, -⟩ := hs
  exact ⟨hmem, hzero, h⟩

/-- The record of a fetch beyond the store is truthful (R161). -/
theorem takeFault_outOfBounds_faultTrue {s : State} (h : s.pc.toNat + 3 ≥ Config.memSize) :
    FaultTrue (s.takeFault .outOfBounds none) := by
  rintro r ⟨⟩
  exact ⟨rfl, .inl ⟨rfl, rfl, h⟩⟩

/-- The record of an unrecognised word is truthful (R163). -/
theorem takeFault_illegalInstruction_faultTrue {s : State} {w : Word} {e : DecodeReject}
    (hw : memReadWord s.mem s.pc = .ok w) (he : decode w = .error e) :
    FaultTrue (s.takeFault .illegalInstruction (some w)) := by
  rintro r ⟨⟩
  exact ⟨rfl, .inr ⟨rfl, w, e, rfl, hw, he⟩⟩

/-! ### An even pc -/

theorem add_toNat_even {a b : Word} (ha : a.toNat % 2 = 0) (hb : b.toNat % 2 = 0) : (a + b).toNat % 2 = 0 := by
  rw [BitVec.toNat_add]
  omega

theorem toNat_even_of_getLsbD_zero {v : Word} (h : v.getLsbD 0 = false) : v.toNat % 2 = 0 := by
  rw [BitVec.getLsbD, Nat.testBit_zero] at h
  simpa using h

/-- Bit 0 of every J offset is the literal 0 of 30_encoding.md R57. -/
theorem offJOf_even (w : Word) : (offJOf w).toNat % 2 = 0 := by
  apply toNat_even_of_getLsbD_zero
  rw [offJOf, sext, off21Of, BitVec.getLsbD_signExtend, BitVec.getLsbD_append]
  rfl

theorem decodeOpImm_isJump (w : Word) : (decodeOpImm w).isJump = false := by
  unfold decodeOpImm
  split_ifs <;> rfl

theorem decodeOp_isJump (w : Word) : (decodeOp w).isJump = false := by
  unfold decodeOp
  split_ifs <;> rfl

theorem ne_jal_of_not_isJump {i : Instr} (hi : i.isJump = false) (rd : Reg) (off : Word) : i ≠ .jal rd off := by
  rintro rfl
  cases hi

/-- A decoded JAL holds the word's J offset (R62): of the decoder's rows only opcode JAL answers one. -/
theorem decode_jal_offset {w : Word} {rd : Reg} {off : Word} (h : decode w = .ok (.jal rd off)) : off = offJOf w := by
  unfold decode at h
  split_ifs at h
  · exact absurd (Except.ok.inj h) (ne_jal_of_not_isJump (decodeOpImm_isJump w) rd off)
  · cases h
  · cases h
  · exact absurd (Except.ok.inj h) (ne_jal_of_not_isJump (decodeOp_isJump w) rd off)
  · cases h
    rfl
  · cases h

/-- JALR clears bit 0 of its target (44_jump.md R152). -/
theorem jalrTarget_even (rs1 : Reg) (imm : Word) (s : State) : (jalrTarget rs1 imm s).toNat % 2 = 0 := by
  apply toNat_even_of_getLsbD_zero
  simp [jalrTarget, aluAnd]

/-- From an even pc a decoded instruction goes to an even address (R16, R153). -/
theorem targetOf_even {w : Word} {i : Instr} {s : State} (hpc : s.pc.toNat % 2 = 0) (hi : decode w = .ok i) :
    (targetOf s i).toNat % 2 = 0 := by
  cases i with
  | jal rd off =>
    cases decode_jal_offset hi
    exact add_toNat_even hpc (offJOf_even w)
  | jalr rd rs1 imm => exact jalrTarget_even rs1 imm s
  | _ => exact add_toNat_even hpc (by decide)

/-! ### The statements of 10_state.md -/

/-- Settles O50, by the cases of a step: an instruction changes no part of the invariant, and each fault entry writes a
truthful record. -/
theorem stepKeepsTheInvariant : Obligations.StepKeepsTheInvariant := by
  intro s t hs h
  obtain ⟨hf, ⟨hb, rfl⟩ | ⟨w, i, -, -, hx⟩ | ⟨w, e, hw, he, rfl⟩⟩ := step_cases h
  · exact takeFault_inv hs (takeFault_outOfBounds_faultTrue hb)
  · exact exec_inv hf hs hx
  · exact takeFault_inv hs (takeFault_illegalInstruction_faultTrue hw he)

/-- Settles O53, by the cases of a step: a fault leaves the pc, and the target of every decoded instruction is even. -/
theorem evenPcStaysEven : Obligations.EvenPcStaysEven := by
  intro s t hpc h
  obtain ⟨-, ⟨-, rfl⟩ | ⟨w, i, -, hi, hx⟩ | ⟨w, e, -, -, rfl⟩⟩ := step_cases h
  · exact hpc
  · rw [exec_eq] at hx
    cases hx
    exact targetOf_even hpc hi
  · exact hpc

/-- Settles O8: the accessors' laws, and `exec_eq` with its register write dropped. -/
theorem registerZeroIsHardwired : Obligations.RegisterZeroIsHardwired := by
  refine ⟨readReg_zero, writeReg_zero, fun s r x v hr => ?_, fun i s hi => ?_⟩
  · rw [writeReg_readReg]
    by_cases hx : x = r
    · rw [if_pos ⟨hx, hx ▸ hr⟩, if_pos hx]
    · rw [if_neg (fun h => hx h.1), if_neg hx]
  · have hx := exec_eq i s
    rw [hi, writeReg_zero] at hx
    refine ⟨_, hx, fun r => rfl, rfl, targetOf_of_not_isJump s, ?_, ?_⟩
    · rintro off rfl
      rfl
    · rintro rs1 imm rfl
      rfl

/-- Settles O41: every instruction is one commit of its value and its target. -/
theorem everyInstructionCommitsOnlyRdAndPc : Obligations.EveryInstructionCommitsOnlyRdAndPc :=
  fun i s => ⟨resultOf s i, targetOf s i, commitsTo_of_exec_eq (exec_eq i s), targetOf_of_not_isJump s⟩

/-- Settles O42: the committed value and target are functions of the sources and the pc. -/
theorem resultsDependOnSourcesAndPcOnly : Obligations.ResultsDependOnSourcesAndPcOnly := by
  intro i s s' t t' hpc hsrc ht ht'
  rw [exec_eq] at ht ht'
  cases ht
  cases ht'
  refine ⟨?_, targetOf_congr hpc i hsrc⟩
  rw [setPc_readReg, setPc_readReg, writeReg_readReg, writeReg_readReg, resultOf_congr hpc i hsrc]
  by_cases hrd : i.rd = 0
  · simp [hrd]
  · simp [hrd]

/-- Settles O55: setting `halt` is the host's `hostWriteHalt`, with which a cycle commutes. -/
theorem haltFlagDoesNotInfluenceACycle : Obligations.HaltFlagDoesNotInfluenceACycle :=
  fun s b => cycleUnder_hostWriteHalt Config.illegalPolicy b s

/-- Settles O1: every field at its value of the reset table, and the empty memory reads 0x00. -/
theorem resetLeavesEverythingZero : Obligations.ResetLeavesEverythingZero :=
  ⟨reset_readReg, rfl, rfl, rfl, fun _ ha => if_neg (Nat.not_le.2 ha)⟩

/-- Settles O51: reset holds no record, so its record's truth is vacuous. -/
theorem resetMeetsTheInvariant : Obligations.ResetMeetsTheInvariant :=
  ⟨reset_mem_wf, by decide, faultTrue_of_none rfl⟩

end Sys2Proof.Machine
end

section
/-! PROOFS. The laws that the statements about memory need, and the proofs of those statements (20_memory.md). -/

namespace Sys2Proof.Machine

/-! ### What each access answers, on either side of its bound (R33 to R37) -/

section
variable {m : Memory} {a : Word}

theorem memReadByte_eq_ok (h : a.toNat < Config.memSize) : memReadByte m a = .ok (getByte m a.toNat) :=
  if_neg (Nat.not_le.2 h)

theorem memReadByte_eq_error (h : a.toNat ≥ Config.memSize) : memReadByte m a = .error .outOfBounds :=
  if_pos h

theorem memReadWord_eq_ok (h : a.toNat + 3 < Config.memSize) :
    memReadWord m a = .ok (wordOfBytes (getByte m a.toNat) (getByte m (a.toNat + 1)) (getByte m (a.toNat + 2))
      (getByte m (a.toNat + 3))) :=
  if_neg (Nat.not_le.2 h)

theorem memReadWord_eq_error (h : a.toNat + 3 ≥ Config.memSize) : memReadWord m a = .error .outOfBounds :=
  if_pos h

theorem memWriteByte_eq_ok {v : Byte} (h : a.toNat < Config.memSize) :
    memWriteByte m a v = .ok (setByte m a.toNat v) :=
  if_neg (Nat.not_le.2 h)

theorem memWriteByte_eq_error {v : Byte} (h : a.toNat ≥ Config.memSize) :
    memWriteByte m a v = .error .outOfBounds :=
  if_pos h

theorem memWriteWord_eq_ok {v : Word} (h : a.toNat + 3 < Config.memSize) :
    memWriteWord m a v = .ok (setWord m a.toNat v) :=
  if_neg (Nat.not_le.2 h)

theorem memWriteWord_eq_error {v : Word} (h : a.toNat + 3 ≥ Config.memSize) :
    memWriteWord m a v = .error .outOfBounds :=
  if_pos h

/-- A failing byte read is OutOfBounds, and its address is too high (R36). -/
theorem memReadByte_error {c : FaultCause} (h : memReadByte m a = .error c) :
    c = .outOfBounds ∧ a.toNat ≥ Config.memSize := by
  unfold memReadByte at h
  split at h
  · cases h
    exact ⟨rfl, by assumption⟩
  · cases h

/-- A word write that succeeds lies inside the store (R37). -/
theorem memWriteWord_ok {m' : Memory} {v : Word} (h : memWriteWord m a v = .ok m') :
    a.toNat + 3 < Config.memSize ∧ m' = setWord m a.toNat v := by
  unfold memWriteWord at h
  split at h
  · cases h
  · cases h
    exact ⟨by omega, rfl⟩

/-- A byte read depends on memory only through the byte at its address. -/
theorem memReadByte_congr {m' : Memory} (h : getByte m a.toNat = getByte m' a.toNat) :
    memReadByte m a = memReadByte m' a := by
  rw [memReadByte, memReadByte, h]

/-! ### The four bytes of a word (R32) -/

/-- Inside the store the address `a + k` does not wrap, so the byte read there is the byte at `a.toNat + k`. -/
theorem memReadByte_add {k : Nat} (ha : a.toNat + 3 < Config.memSize) (hk : k < 4) :
    memReadByte m (a + BitVec.ofNat 32 k) = .ok (getByte m (a.toNat + k)) := by
  have hadd : (a + BitVec.ofNat 32 k).toNat = a.toNat + k := by
    rw [memSize_eq] at ha
    rw [BitVec.toNat_add, BitVec.toNat_ofNat]
    omega
  rw [memReadByte_eq_ok (by omega), hadd]

end

/-- Byte `k` of a word made of four bytes is the `k`-th of them: the converse of `wordOfBytes_byteOfWord`. -/
theorem byteOfWord_wordOfBytes (f : Nat → Byte) {k : Nat} (hk : k < 4) :
    byteOfWord (wordOfBytes (f 0) (f 1) (f 2) (f 3)) k = f k := by
  unfold byteOfWord wordOfBytes
  interval_cases k
  · rw [BitVec.extractLsb'_append_eq_of_add_le (by decide), BitVec.extractLsb'_eq_self]
  · rw [BitVec.extractLsb'_append_eq_of_le (by decide), BitVec.extractLsb'_append_eq_of_add_le (by decide),
      BitVec.extractLsb'_eq_self]
  · rw [BitVec.extractLsb'_append_eq_of_le (by decide), BitVec.extractLsb'_append_eq_of_le (by decide),
      BitVec.extractLsb'_append_eq_of_add_le (by decide), BitVec.extractLsb'_eq_self]
  · rw [BitVec.extractLsb'_append_eq_of_le (by decide), BitVec.extractLsb'_append_eq_of_le (by decide),
      BitVec.extractLsb'_append_eq_of_le (by decide), BitVec.extractLsb'_eq_self]

/-- The byte `k` places into a stored word is its byte `k`. -/
theorem getByte_setWord_inside {m : Memory} (a : Nat) (v : Word) {k : Nat}
    (hm : m.Pairwise fun c d => c.1 < d.1) (hk : k < 4) : getByte (setWord m a v) (a + k) = byteOfWord v k := by
  rw [getByte_setWord m a _ v hm]
  interval_cases k <;> simp

/-- Storing a word leaves every byte outside its four as it was. -/
theorem getByte_setWord_outside {m : Memory} {a x : Nat} (v : Word) (hm : m.Pairwise fun c d => c.1 < d.1)
    (hx : ¬ (a ≤ x ∧ x ≤ a + 3)) : getByte (setWord m a v) x = getByte m x := by
  rw [getByte_setWord m a x v hm, if_neg (by omega), if_neg (by omega), if_neg (by omega), if_neg (by omega)]

/-- A stored word reads back as a word. -/
theorem memReadWord_setWord {m : Memory} {a : Word} (v : Word) (hm : m.wf) (ha : a.toNat + 3 < Config.memSize) :
    memReadWord (setWord m a.toNat v) a = .ok v := by
  obtain ⟨hsorted, -⟩ := hm
  have hbyte {k : Nat} (hk : k < 4) := getByte_setWord_inside a.toNat v hsorted hk
  have h0 := hbyte (k := 0) (by decide)
  rw [Nat.add_zero] at h0
  rw [memReadWord_eq_ok ha, h0, hbyte (by decide), hbyte (by decide), hbyte (by decide), wordOfBytes_byteOfWord]

/-- A stored word reads back as its four bytes. -/
theorem memReadByte_setWord_add {m : Memory} {a : Word} {k : Nat} (v : Word) (hm : m.wf)
    (ha : a.toNat + 3 < Config.memSize) (hk : k < 4) :
    memReadByte (setWord m a.toNat v) (a + BitVec.ofNat 32 k) = .ok (byteOfWord v k) := by
  rw [memReadByte_add ha hk, getByte_setWord_inside a.toNat v hm.1 hk]

/-! ### A cycle has no access to memory but the fetch (R30, R39) -/

/-- A step changes neither memory nor `halt`, by its cases (10_state.md R17). -/
theorem step_mem_halt {s t : State} (h : step s = .next t) : t.mem = s.mem ∧ t.halt = s.halt := by
  obtain ⟨-, ⟨-, rfl⟩ | ⟨w, i, -, -, hx⟩ | ⟨w, e, -, -, rfl⟩⟩ := step_cases h
  · exact ⟨rfl, rfl⟩
  · rw [exec_eq] at hx
    cases hx
    simp
  · exact ⟨rfl, rfl⟩

/-- A run of `n + 1` steps is one step and a run of `n`. -/
theorem run_succ_next {n : Nat} {s t : State} (h : core.run (n + 1) s = .next t) :
    ∃ u, step s = .next u ∧ core.run n u = .next t := by
  simp only [Host.Core.run] at h
  split at h
  · exact ⟨_, by assumption, h⟩
  · cases h
  · cases h

/-! ### The statements of 20_memory.md -/

/-- Settles O2: the word read is made of the bytes at `a` to `a + 3`, and none of these addresses wraps. -/
theorem wordReadIsItsFourBytes : Obligations.WordReadIsItsFourBytes := by
  intro m a ha
  refine ⟨_, memReadWord_eq_ok ha, fun k hk => ?_⟩
  rw [memReadByte_add ha hk]
  exact congrArg Except.ok (byteOfWord_wordOfBytes (fun j => getByte m (a.toNat + j)) hk).symm

/-- Settles O4: `setByte` reads back its byte at its address and the old one at every other. -/
theorem byteWriteChangesOneByte : Obligations.ByteWriteChangesOneByte := by
  intro m a v hm
  refine ⟨memWriteByte_eq_error, fun ha => ⟨_, memWriteByte_eq_ok ha, fun x => ?_⟩⟩
  have hread := getByte_setByte m a.toNat x.toNat v hm.1
  by_cases hx : x = a
  · subst hx
    rw [if_pos rfl, memReadByte_eq_ok ha, hread, if_pos rfl]
  · rw [if_neg hx]
    apply memReadByte_congr
    rw [hread, if_neg (mt BitVec.eq_of_toNat_eq hx)]

/-- Settles O5: an address inside the word reads the stored byte, and one outside it reads as before. -/
theorem wordWriteStoresFourBytesOrNothing : Obligations.WordWriteStoresFourBytesOrNothing := by
  intro m a v hm
  refine ⟨memWriteWord_eq_error, fun ha => ⟨_, memWriteWord_eq_ok ha, fun x => ?_⟩⟩
  by_cases hx : a.toNat ≤ x.toNat ∧ x.toNat ≤ a.toNat + 3
  · obtain ⟨hlow, hhigh⟩ := hx
    have hread := getByte_setWord_inside a.toNat v hm.1 (k := x.toNat - a.toNat) (by omega)
    rw [Nat.add_sub_cancel' hlow] at hread
    rw [if_pos ⟨hlow, hhigh⟩, memReadByte_eq_ok (Nat.lt_of_le_of_lt hhigh ha), hread, byteOfWord]
  · rw [if_neg hx]
    exact memReadByte_congr (getByte_setWord_outside v hm.1 hx)

/-- Settles O6: a write that succeeds lies inside the store, where the stored word reads back at both widths, and a fetch
is a word read at the pc. -/
theorem wordWriteReadsBackAtBothWidths : Obligations.WordWriteReadsBackAtBothWidths := by
  intro m m' a v hm h
  obtain ⟨ha, rfl⟩ := memWriteWord_ok h
  have hword := memReadWord_setWord v hm ha
  refine ⟨hword, fun k hk => memReadByte_setWord_add v hm ha hk, ?_⟩
  rintro s hmem rfl
  rw [fetch_eq, hmem, hword]

/-- Settles O54, by induction on the number of steps. -/
theorem runNeverChangesMemoryOrHalt : Obligations.RunNeverChangesMemoryOrHalt := by
  intro n
  induction n with
  | zero =>
    rintro s t ⟨⟩
    exact ⟨rfl, rfl⟩
  | succ n ih =>
    intro s t h
    obtain ⟨u, hstep, hrun⟩ := run_succ_next h
    obtain ⟨hmem, hhalt⟩ := step_mem_halt hstep
    obtain ⟨hmem', hhalt'⟩ := ih u t hrun
    exact ⟨hmem'.trans hmem, hhalt'.trans hhalt⟩

/-- Settles O3: each read fails beyond its bound, and only there. -/
theorem readsAreBoundsCheckedWithoutWrap : Obligations.ReadsAreBoundsCheckedWithoutWrap := by
  intro m a
  refine ⟨⟨fun h => ?_, memReadWord_eq_error⟩, ⟨fun h => ?_, memReadByte_eq_error⟩, fun c h => ?_, fun c h => ?_⟩
  · exact (memReadWord_error h).2
  · exact (memReadByte_error h).2
  · exact (memReadWord_error h).1
  · exact (memReadByte_error h).1

end Sys2Proof.Machine
end

section
/-! PROOFS. The laws that the statements about the encoding need, and the proofs of those statements (30_encoding.md). -/

namespace Sys2Proof

open Machine

/-! ### Slices of a word -/

theorem getLsbD_extractLsb_eq {w : Word} {hi lo k j : Nat} (hk : k ≤ hi - lo) (hj : lo + k = j) :
    (w.extractLsb hi lo).getLsbD k = w.getLsbD j := by
  rw [BitVec.getLsbD_extractLsb, decide_eq_true (Nat.lt_succ_of_le hk), Bool.true_and, hj]

/-- A slice that lies wholly inside a mask is not changed by it. -/
theorem extractLsb_of_and_eq {w m t : Word} {hi lo : Nat} (hm : m.extractLsb hi lo = BitVec.allOnes _)
    (h : w &&& m = t) : w.extractLsb hi lo = t.extractLsb hi lo := by
  rw [← h, BitVec.extractLsb_and, hm, BitVec.and_allOnes]

/-- What a mask fixes, every mask inside it fixes. -/
theorem and_submask {w m m' t : Word} (hsub : m &&& m' = m') (h : w &&& m = t) : w &&& m' = t &&& m' := by
  rw [← h, BitVec.and_assoc, hsub]

theorem and_congr_submask {w w' m m' : Word} (hsub : m &&& m' = m') (h : w &&& m = w' &&& m) : w &&& m' = w' &&& m' :=
  (and_submask hsub h).trans (and_submask hsub rfl).symm

/-- Words that agree under a mask agree in every slice inside it. -/
theorem extractLsb_congr {w w' m : Word} {hi lo : Nat} (hm : m.extractLsb hi lo = BitVec.allOnes _)
    (h : w &&& m = w' &&& m) : w.extractLsb hi lo = w'.extractLsb hi lo :=
  (extractLsb_of_and_eq hm h).trans (extractLsb_of_and_eq hm rfl).symm

/-- The slice that `n` trailing zero bits make. -/
theorem extractLsb'_zero_of_mod_eq_zero {v : Word} {n : Nat} (h : v.toNat % 2 ^ n = 0) : v.extractLsb' 0 n = 0#n :=
  BitVec.eq_of_toNat_eq (by simpa using h)

/-! ### Sign extension (00_scope.md R6) -/

section
variable {n : Nat} {v : BitVec (n + 1)} {k : Nat}

theorem sext_getLsbD_low (hk : k ≤ n) (hn : n < 32) : (sext v).getLsbD k = v.getLsbD k := by
  rw [sext, BitVec.getLsbD_signExtend, decide_eq_true (by omega), if_pos (by omega), Bool.true_and]

theorem sext_getLsbD_high (hk : n ≤ k) (hk' : k < 32) : (sext v).getLsbD k = v.getLsbD n := by
  rcases Nat.eq_or_lt_of_le hk with rfl | hlt
  · exact sext_getLsbD_low (Nat.le_refl _) hk'
  · rw [sext, BitVec.getLsbD_signExtend, decide_eq_true hk', if_neg (by omega), Bool.true_and, BitVec.msb_eq_getLsbD_last,
      Nat.add_sub_cancel]

/-- A sign-extended vector keeps its value, so it stays in the range of its own width. -/
theorem sext_toInt_range (hn : n < 32) : -2 ^ n ≤ (sext v).toInt ∧ (sext v).toInt < 2 ^ n := by
  rw [sext, BitVec.toInt_signExtend_of_le hn]
  exact ⟨v.le_toInt, BitVec.toInt_lt⟩

end

/-- A word in the range of `n + 1` bits is the sign extension of its low `n + 1` bits. -/
theorem sext_extractLsb'_of_range {v : Word} {n : Nat} (hn : n < 32) (hlow : -2 ^ n ≤ v.toInt) (hhigh : v.toInt < 2 ^ n) :
    sext (v.extractLsb' 0 (n + 1)) = v := by
  apply BitVec.eq_of_toInt_eq
  rw [sext, BitVec.toInt_signExtend_of_le hn, ← BitVec.setWidth_eq_extractLsb' hn,
    ← BitVec.signExtend_eq_setWidth_of_le v hn, BitVec.toInt_signExtend_eq_toInt_bmod_of_le v hn]
  have hpow : (2 : Int) ^ (n + 1) = 2 * 2 ^ n := by rw [Int.pow_succ, Int.mul_comm]
  apply Int.bmod_eq_of_le
  · push_cast
    omega
  · push_cast
    omega

/-! ### The fields of a word as slices and numbers (R52 to R57) -/

theorem opcodeOf_eq_iff (w : Word) (op : BitVec 7) : opcodeOf w = op ↔ w.toNat % 128 = op.toNat := by
  rw [← BitVec.toNat_inj, opcodeOf, BitVec.extractLsb_toNat]
  rfl

theorem funct3Of_eq_iff (w : Word) (f : BitVec 3) : funct3Of w = f ↔ w.toNat / 4096 % 8 = f.toNat := by
  rw [← BitVec.toNat_inj, funct3Of, BitVec.extractLsb_toNat, Nat.shiftRight_eq_div_pow]

theorem immIOf_range (w : Word) : -2048 ≤ (immIOf w).toInt ∧ (immIOf w).toInt ≤ 2047 := by
  obtain ⟨hlow, hhigh⟩ := sext_toInt_range (v := w.extractLsb 31 20) (by decide)
  exact ⟨hlow, Int.le_of_lt_add_one hhigh⟩

theorem toInt_even_of_toNat_even {v : Word} (h : v.toNat % 2 = 0) : v.toInt % 2 = 0 := by
  rw [BitVec.toInt_eq_toNat_cond]
  split <;> omega

theorem offJOf_range (w : Word) : -1048576 ≤ (offJOf w).toInt ∧ (offJOf w).toInt ≤ 1048574 := by
  obtain ⟨hlow, hhigh⟩ : -1048576 ≤ (offJOf w).toInt ∧ (offJOf w).toInt < 1048576 :=
    sext_toInt_range (v := off21Of w) (by decide)
  have heven := toInt_even_of_toNat_even (offJOf_even w)
  omega

theorem immUOf_low_zero (w : Word) : (immUOf w).toNat % 4096 = 0 := by
  rw [immUOf, BitVec.toNat_append, ← Nat.shiftLeft_add_eq_or_of_lt (by decide), Nat.shiftLeft_eq]
  simp

theorem immUOf_eq_and (w : Word) : immUOf w = w &&& 0xFFFFF000#32 := by
  have hw : w.extractLsb 31 12 ++ w.extractLsb 11 0 = w := BitVec.extractLsb'_append_extractLsb' (w := 20) (len := 12)
  have hm : BitVec.allOnes 20 ++ 0#12 = 0xFFFFF000#32 := by decide
  calc immUOf w = (w.extractLsb 31 12 ++ w.extractLsb 11 0) &&& (BitVec.allOnes 20 ++ 0#12) := by
        rw [BitVec.and_append, BitVec.and_zero]
        exact congrArg (· ++ 0#12) BitVec.and_allOnes.symm
    _ = w &&& 0xFFFFF000#32 := congrArg₂ (· &&& ·) hw hm

/-- The word bit that each bit of the J offset is taken from (R57). -/
theorem off21Of_getLsbD (w : Word) {k : Nat} (hk : k ≤ 20) :
    (off21Of w).getLsbD k =
      if k = 0 then false else if k ≤ 10 then w.getLsbD (20 + k) else if k = 11 then w.getLsbD 20
      else if k ≤ 19 then w.getLsbD k else w.getLsbD 31 := by
  simp only [off21Of, BitVec.getLsbD_append]
  split_ifs <;> try omega
  · exact BitVec.getLsbD_zero
  all_goals exact getLsbD_extractLsb_eq (by omega) (by omega)

/-! ### What a mask of the opcode table fixes (R62) -/

/-- Every word is the U-format encoding of its own fields. -/
theorem encodeU_fields (w : Word) : encodeU w (rdOf w) (opcodeOf w) = w := by
  show w.extractLsb' 12 20 ++ w.extractLsb' 7 5 ++ w.extractLsb' 0 7 = w
  rw [BitVec.extractLsb'_append_extractLsb'_eq_extractLsb' (show 12 = 7 + 5 from rfl),
    BitVec.extractLsb'_append_extractLsb'_eq_extractLsb' (show 7 = 0 + 7 from rfl), BitVec.extractLsb'_eq_self]

/-- Every word is the R-format encoding of its own fields: the leading three of them make the U format's first slice. -/
theorem encodeR_fields (w : Word) :
    encodeR (w.extractLsb 31 25) (rs2Of w) (rs1Of w) (funct3Of w) (rdOf w) (opcodeOf w) = w := by
  have himm : w.extractLsb' 25 7 ++ w.extractLsb' 20 5 ++ w.extractLsb' 15 5 ++ w.extractLsb' 12 3 = w.extractLsb' 12 20 := by
    rw [BitVec.extractLsb'_append_extractLsb'_eq_extractLsb' (show 25 = 20 + 5 from rfl),
      BitVec.extractLsb'_append_extractLsb'_eq_extractLsb' (show 20 = 15 + 5 from rfl),
      BitVec.extractLsb'_append_extractLsb'_eq_extractLsb' (show 15 = 12 + 3 from rfl)]
  exact (congrArg (· ++ w.extractLsb' 7 5 ++ w.extractLsb' 0 7) himm).trans (encodeU_fields w)

theorem and_opcode_eq (w : Word) : w &&& 0x0000007F#32 = 0#25 ++ opcodeOf w := by
  conv_lhs => rw [← encodeU_fields w]
  exact encodeU_and_mask _ _ _

theorem and_funct3_eq (w : Word) : w &&& 0x0000707F#32 = 0#17 ++ funct3Of w ++ 0#5 ++ opcodeOf w := by
  conv_lhs => rw [← encodeR_fields w]
  exact encodeR_and_mask _ _ _ _ _ _

/-- The mask 0x4000707F adds bit 30 to the mask 0x0000707F. -/
theorem and_b30_eq (w : Word) :
    w &&& 0x4000707F#32 = w &&& 0x0000707F#32 ||| (if b30Of w then BitVec.twoPow 32 30 else 0#32) := by
  rw [b30Of, ← BitVec.and_twoPow, ← BitVec.and_or_distrib_left]
  rfl

section
variable {w m t : Word}

theorem opcodeOf_of_and_eq (hm : opcodeOf m = 127#7) (h : w &&& m = t) : opcodeOf w = opcodeOf t :=
  extractLsb_of_and_eq hm h

theorem funct3Of_of_and_eq (hm : funct3Of m = 7#3) (h : w &&& m = t) : funct3Of w = funct3Of t :=
  extractLsb_of_and_eq hm h

theorem b30Of_of_and_eq (hm : b30Of m = true) (h : w &&& m = t) : b30Of w = b30Of t := by
  rw [← h, b30Of, b30Of, BitVec.getLsbD_and, ← b30Of, ← b30Of, hm, Bool.and_true]

theorem and_eq_of_opcode (ht : t &&& 0x0000007F#32 = t) (hop : opcodeOf w = opcodeOf t) : w &&& 0x0000007F#32 = t := by
  rw [← ht, and_opcode_eq, and_opcode_eq, hop]

theorem and_eq_of_funct3 (ht : t &&& 0x0000707F#32 = t) (hop : opcodeOf w = opcodeOf t)
    (hf : funct3Of w = funct3Of t) : w &&& 0x0000707F#32 = t := by
  rw [← ht, and_funct3_eq, and_funct3_eq, hop, hf]

theorem and_eq_of_b30 (ht : t &&& 0x4000707F#32 = t) (hop : opcodeOf w = opcodeOf t)
    (hf : funct3Of w = funct3Of t) (hb : b30Of w = b30Of t) : w &&& 0x4000707F#32 = t := by
  rw [← ht, and_b30_eq, and_b30_eq, and_funct3_eq, and_funct3_eq, hop, hf, hb]

end

/-! ### The decoder by the rows of the table (R62) -/

theorem decode_of_opImm {w : Word} (hop : opcodeOf w = opcOpImm) : decode w = .ok (decodeOpImm w) :=
  if_pos hop

theorem decode_of_op {w : Word} (hop : opcodeOf w = opcOp) : decode w = .ok (decodeOp w) := by
  rw [decode, hop]
  rfl

theorem decodeOpImm_of_001 {w : Word} (hf : funct3Of w = 0b001#3) :
    decodeOpImm w = .slli (rdOf w) (rs1Of w) (shamtOf w) := by
  rw [decodeOpImm, hf]
  rfl

theorem decodeOpImm_of_101 {w : Word} (hf : funct3Of w = 0b101#3) :
    decodeOpImm w =
      if b30Of w then .srai (rdOf w) (rs1Of w) (shamtOf w) else .srli (rdOf w) (rs1Of w) (shamtOf w) := by
  rw [decodeOpImm, hf]
  rfl

/-- The operation of `i` with the operands that the fields of `w` give it. -/
def Instr.withOperandsOf (i : Instr) (w : Word) : Instr :=
  match i with
  | .addi _ _ _ => .addi (rdOf w) (rs1Of w) (immIOf w)
  | .slti _ _ _ => .slti (rdOf w) (rs1Of w) (immIOf w)
  | .sltiu _ _ _ => .sltiu (rdOf w) (rs1Of w) (immIOf w)
  | .xori _ _ _ => .xori (rdOf w) (rs1Of w) (immIOf w)
  | .ori _ _ _ => .ori (rdOf w) (rs1Of w) (immIOf w)
  | .andi _ _ _ => .andi (rdOf w) (rs1Of w) (immIOf w)
  | .slli _ _ _ => .slli (rdOf w) (rs1Of w) (shamtOf w)
  | .srli _ _ _ => .srli (rdOf w) (rs1Of w) (shamtOf w)
  | .srai _ _ _ => .srai (rdOf w) (rs1Of w) (shamtOf w)
  | .lui _ _ => .lui (rdOf w) (immUOf w)
  | .auipc _ _ => .auipc (rdOf w) (immUOf w)
  | .add _ _ _ => .add (rdOf w) (rs1Of w) (rs2Of w)
  | .sub _ _ _ => .sub (rdOf w) (rs1Of w) (rs2Of w)
  | .sll _ _ _ => .sll (rdOf w) (rs1Of w) (rs2Of w)
  | .slt _ _ _ => .slt (rdOf w) (rs1Of w) (rs2Of w)
  | .sltu _ _ _ => .sltu (rdOf w) (rs1Of w) (rs2Of w)
  | .xor _ _ _ => .xor (rdOf w) (rs1Of w) (rs2Of w)
  | .srl _ _ _ => .srl (rdOf w) (rs1Of w) (rs2Of w)
  | .sra _ _ _ => .sra (rdOf w) (rs1Of w) (rs2Of w)
  | .or _ _ _ => .or (rdOf w) (rs1Of w) (rs2Of w)
  | .and _ _ _ => .and (rdOf w) (rs1Of w) (rs2Of w)
  | .jal _ _ => .jal (rdOf w) (offJOf w)
  | .jalr _ _ _ => .jalr (rdOf w) (rs1Of w) (immIOf w)

/-- The operands that a word's fields give are in the ranges of R70. -/
theorem withOperandsOf_wf (i : Instr) (w : Word) : (i.withOperandsOf w).wf = true := by
  cases i with
  | addi | slti | sltiu | xori | ori | andi | jalr => exact decide_eq_true (immIOf_range w)
  | lui | auipc => exact decide_eq_true (immUOf_low_zero w)
  | jal =>
    obtain ⟨hlow, hhigh⟩ := offJOf_range w
    exact decide_eq_true ⟨hlow, hhigh, offJOf_even w⟩
  | slli | srli | srai | add | sub | sll | slt | sltu | xor | srl | sra | or | and => rfl

/-- Every word of a row decodes to the row's operation, with the operands its fields give. -/
theorem decode_of_row {w : Word} {i : Instr} (h : w &&& tableMask i = tableMatch i) :
    decode w = .ok (i.withOperandsOf w) := by
  cases i <;> simp only [tableMask, tableMatch] at h
  case lui | auipc | jal =>
    rw [decode, opcodeOf_of_and_eq rfl h]
    rfl
  case jalr =>
    rw [decode, opcodeOf_of_and_eq rfl h, funct3Of_of_and_eq rfl h]
    rfl
  case addi | slti | sltiu | xori | ori | andi | slli =>
    rw [decode_of_opImm (opcodeOf_of_and_eq rfl h), decodeOpImm, funct3Of_of_and_eq rfl h]
    rfl
  case srli | srai =>
    rw [decode_of_opImm (opcodeOf_of_and_eq rfl h), decodeOpImm, funct3Of_of_and_eq rfl h, b30Of_of_and_eq rfl h]
    rfl
  case sll | slt | sltu | xor | or | and =>
    rw [decode_of_op (opcodeOf_of_and_eq rfl h), decodeOp, funct3Of_of_and_eq rfl h]
    rfl
  case add | sub | srl | sra =>
    rw [decode_of_op (opcodeOf_of_and_eq rfl h), decodeOp, funct3Of_of_and_eq rfl h, b30Of_of_and_eq rfl h]
    rfl

/-- Each of the 23 rows, in the form the statements about instructions use. -/
theorem decodesRow (i : Instr) : DecodesRow (tableMask i) (tableMatch i) i.withOperandsOf :=
  fun w h => ⟨decode_of_row h, withOperandsOf_wf i w⟩

/-- The last `else` of both dispatch tables is funct3 111 (R60, R61). -/
theorem funct3_eq_111 {f : BitVec 3} (h0 : f ≠ 0b000#3) (h1 : f ≠ 0b001#3) (h2 : f ≠ 0b010#3) (h3 : f ≠ 0b011#3)
    (h4 : f ≠ 0b100#3) (h5 : f ≠ 0b101#3) (h6 : f ≠ 0b110#3) : f = 0b111#3 := by
  bv_omega

theorem decodeOpImm_row {w : Word} (hop : opcodeOf w = opcOpImm) :
    w &&& tableMask (decodeOpImm w) = tableMatch (decodeOpImm w) := by
  unfold decodeOpImm
  split_ifs with h0 h1 h2 h3 h4 h5 hb h6 <;> simp only [tableMask, tableMatch]
  · exact and_eq_of_funct3 rfl hop h0
  · exact and_eq_of_funct3 rfl hop h1
  · exact and_eq_of_funct3 rfl hop h2
  · exact and_eq_of_funct3 rfl hop h3
  · exact and_eq_of_funct3 rfl hop h4
  · exact and_eq_of_b30 rfl hop h5 hb
  · exact and_eq_of_b30 rfl hop h5 (Bool.eq_false_of_not_eq_true hb)
  · exact and_eq_of_funct3 rfl hop h6
  · exact and_eq_of_funct3 rfl hop (funct3_eq_111 h0 h1 h2 h3 h4 h5 h6)

theorem decodeOp_row {w : Word} (hop : opcodeOf w = opcOp) :
    w &&& tableMask (decodeOp w) = tableMatch (decodeOp w) := by
  unfold decodeOp
  split_ifs with h0 hb h1 h2 h3 h4 h5 hb h6 <;> simp only [tableMask, tableMatch]
  · exact and_eq_of_b30 rfl hop h0 hb
  · exact and_eq_of_b30 rfl hop h0 (Bool.eq_false_of_not_eq_true hb)
  · exact and_eq_of_funct3 rfl hop h1
  · exact and_eq_of_funct3 rfl hop h2
  · exact and_eq_of_funct3 rfl hop h3
  · exact and_eq_of_funct3 rfl hop h4
  · exact and_eq_of_b30 rfl hop h5 hb
  · exact and_eq_of_b30 rfl hop h5 (Bool.eq_false_of_not_eq_true hb)
  · exact and_eq_of_funct3 rfl hop h6
  · exact and_eq_of_funct3 rfl hop (funct3_eq_111 h0 h1 h2 h3 h4 h5 h6)

/-- A decoded word lies in the row of its instruction: the converse of `decode_of_row`. -/
theorem row_of_decode {w : Word} {i : Instr} (h : decode w = .ok i) : w &&& tableMask i = tableMatch i := by
  unfold decode at h
  split_ifs at h with hOpImm hLui hAuipc hOp hJal hJalr hf <;> cases h
  · exact decodeOpImm_row hOpImm
  · exact and_eq_of_opcode (t := 0x00000037#32) rfl hLui
  · exact and_eq_of_opcode (t := 0x00000017#32) rfl hAuipc
  · exact decodeOp_row hOp
  · exact and_eq_of_opcode (t := 0x0000006F#32) rfl hJal
  · exact and_eq_of_funct3 (t := 0x00000067#32) rfl hJalr hf

/-- So the operands of a decoded instruction are those its word's fields give. -/
theorem withOperandsOf_of_decode {w : Word} {i : Instr} (h : decode w = .ok i) : i.withOperandsOf w = i :=
  Except.ok.inj ((decode_of_row (row_of_decode h)).symm.trans h)

/-! ### The decoder's refusals (R66) -/

theorem decode_eq_error_iff (w : Word) : (∃ e, decode w = .error e) ↔
    (opcodeOf w ≠ opcOpImm ∧ opcodeOf w ≠ opcLui ∧ opcodeOf w ≠ opcAuipc ∧ opcodeOf w ≠ opcOp ∧ opcodeOf w ≠ opcJal ∧
      opcodeOf w ≠ opcJalr) ∨ (opcodeOf w = opcJalr ∧ funct3Of w ≠ 0b000#3) := by
  constructor
  · rintro ⟨e, h⟩
    unfold decode at h
    split_ifs at h with hOpImm hLui hAuipc hOp hJal hJalr hf
    · exact .inr ⟨hJalr, hf⟩
    · exact .inl ⟨hOpImm, hLui, hAuipc, hOp, hJal, hJalr⟩
  · rintro (⟨hOpImm, hLui, hAuipc, hOp, hJal, hJalr⟩ | ⟨hJalr, hf⟩)
    · exact ⟨_, by rw [decode, if_neg hOpImm, if_neg hLui, if_neg hAuipc, if_neg hOp, if_neg hJal, if_neg hJalr]⟩
    · refine ⟨.jalrFunct3, ?_⟩
      rw [decode, hJalr]
      exact if_neg hf

/-! ### The bits the dispatch reads (R63, R64) -/

section
variable {w w' : Word}

/-- Words that agree in bits 24 to 0 agree in every field but b30 and the immediates. -/
theorem fields_congr (h : w &&& 0x01FFFFFF#32 = w' &&& 0x01FFFFFF#32) :
    opcodeOf w = opcodeOf w' ∧ rdOf w = rdOf w' ∧ funct3Of w = funct3Of w' ∧ rs1Of w = rs1Of w' ∧ rs2Of w = rs2Of w' ∧
      shamtOf w = shamtOf w' :=
  ⟨extractLsb_congr rfl h, congrArg BitVec.toFin (extractLsb_congr rfl h), extractLsb_congr rfl h,
    congrArg BitVec.toFin (extractLsb_congr rfl h), congrArg BitVec.toFin (extractLsb_congr rfl h), extractLsb_congr rfl h⟩

theorem b30Of_congr (h : w &&& 0x41FFFFFF#32 = w' &&& 0x41FFFFFF#32) : b30Of w = b30Of w' :=
  (b30Of_of_and_eq rfl h).trans (b30Of_of_and_eq rfl rfl).symm

/-- OP reads bits 24 to 0, and bit 30 only where funct3 is 000 or 101 (R64). -/
theorem decode_congr_of_op (hop : opcodeOf w = opcOp) (h : w &&& 0x01FFFFFF#32 = w' &&& 0x01FFFFFF#32)
    (hb : b30Of w = b30Of w' ∨ (funct3Of w ≠ 0b000#3 ∧ funct3Of w ≠ 0b101#3)) : decode w = decode w' := by
  obtain ⟨hop', hrd, hf, hrs1, hrs2, -⟩ := fields_congr h
  rw [decode_of_op hop, decode_of_op (hop' ▸ hop), decodeOp, decodeOp, hrd, ← hf, hrs1, hrs2]
  rcases hb with hb | ⟨h0, h5⟩
  · rw [hb]
  · rw [if_neg h0, if_neg h5, if_neg h0, if_neg h5]

/-- The right shifts of OP-IMM read bits 24 to 0 and bit 30 (R63). -/
theorem decode_congr_of_shiftRight (hop : opcodeOf w = opcOpImm) (hf : funct3Of w = 0b101#3)
    (h : w &&& 0x01FFFFFF#32 = w' &&& 0x01FFFFFF#32) (hb : b30Of w = b30Of w') : decode w = decode w' := by
  obtain ⟨hop', hrd, hf', hrs1, -, hshamt⟩ := fields_congr h
  rw [decode_of_opImm hop, decode_of_opImm (hop' ▸ hop), decodeOpImm_of_101 hf, decodeOpImm_of_101 (hf' ▸ hf), hb, hrd,
    hrs1, hshamt]

/-- SLLI reads bits 24 to 0 (R63). -/
theorem decode_congr_of_slli (hop : opcodeOf w = opcOpImm) (hf : funct3Of w = 0b001#3)
    (h : w &&& 0x01FFFFFF#32 = w' &&& 0x01FFFFFF#32) : decode w = decode w' := by
  obtain ⟨hop', hrd, hf', hrs1, -, hshamt⟩ := fields_congr h
  rw [decode_of_opImm hop, decode_of_opImm (hop' ▸ hop), decodeOpImm_of_001 hf, decodeOpImm_of_001 (hf' ▸ hf), hrd, hrs1,
    hshamt]

end

/-! ### The operands an encoding holds (R51, R69) -/

section
variable {rd rs1 rs2 : Reg} {f3 : BitVec 3} {f7 op : BitVec 7} {imm off : Word}

/-- Every format ends in the destination and the opcode. -/
theorem rdOf_append (x : BitVec 20) : rdOf (x ++ regBits rd ++ op) = rd := by
  have h : (x ++ regBits rd ++ op).extractLsb' 7 5 = regBits rd := by
    rw [BitVec.extractLsb'_append_eq_of_le (by decide)]
    exact BitVec.extractLsb'_append_eq_right
  exact congrArg BitVec.toFin h

theorem rdOf_encodeR : rdOf (encodeR f7 rs2 rs1 f3 rd op) = rd :=
  rdOf_append _

theorem rdOf_encodeU : rdOf (encodeU imm rd op) = rd :=
  rdOf_append _

theorem rdOf_encodeJ : rdOf (encodeJ off rd op) = rd :=
  rdOf_append _

theorem rs1Of_encodeR : rs1Of (encodeR f7 rs2 rs1 f3 rd op) = rs1 := by
  have h : (encodeR f7 rs2 rs1 f3 rd op).extractLsb' 15 5 = regBits rs1 := by
    rw [encodeR]
    iterate 3 rw [BitVec.extractLsb'_append_eq_of_le (by decide)]
    exact BitVec.extractLsb'_append_eq_right
  exact congrArg BitVec.toFin h

theorem rs2Of_encodeR : rs2Of (encodeR f7 rs2 rs1 f3 rd op) = rs2 := by
  have h : (encodeR f7 rs2 rs1 f3 rd op).extractLsb' 20 5 = regBits rs2 := by
    rw [encodeR]
    iterate 4 rw [BitVec.extractLsb'_append_eq_of_le (by decide)]
    exact BitVec.extractLsb'_append_eq_right
  exact congrArg BitVec.toFin h

/-- The I format is the R format with the immediate over the places of funct7 and rs2. -/
theorem encodeI_eq_encodeR :
    encodeI imm rs1 f3 rd op = encodeR (imm.extractLsb 11 5) (imm.extractLsb 4 0).toFin rs1 f3 rd op := by
  have himm : imm.extractLsb' 5 7 ++ imm.extractLsb' 0 5 = imm.extractLsb' 0 12 :=
    BitVec.extractLsb'_append_extractLsb'_eq_extractLsb' rfl
  exact congrArg (· ++ regBits rs1 ++ f3 ++ regBits rd ++ op) himm.symm

theorem shamtOf_encodeShift (shamt : Shamt) : shamtOf (encodeShift f7 shamt rs1 f3 rd op) = shamt := by
  rw [encodeShift_eq_encodeR]
  exact congrArg BitVec.ofFin rs2Of_encodeR

theorem immIOf_encodeI (h : immIFits imm = true) : immIOf (encodeI imm rs1 f3 rd op) = imm := by
  obtain ⟨hlow, hhigh⟩ := of_decide_eq_true h
  have himm : (encodeI imm rs1 f3 rd op).extractLsb' 20 12 = imm.extractLsb' 0 12 := by
    rw [encodeI]
    iterate 4 rw [BitVec.extractLsb'_append_eq_of_le (by decide)]
    exact BitVec.extractLsb'_eq_self
  exact (congrArg sext himm).trans (sext_extractLsb'_of_range (by decide) hlow (Int.lt_add_one_of_le hhigh))

theorem immUOf_encodeU (h : immUFits imm = true) : immUOf (encodeU imm rd op) = imm := by
  have himm : (encodeU imm rd op).extractLsb' 12 20 = imm.extractLsb' 12 20 := by
    rw [encodeU]
    iterate 2 rw [BitVec.extractLsb'_append_eq_of_le (by decide)]
    exact BitVec.extractLsb'_eq_self
  have hzero : imm.extractLsb' 0 12 = 0#12 := extractLsb'_zero_of_mod_eq_zero (of_decide_eq_true h)
  calc immUOf (encodeU imm rd op) = imm.extractLsb' 12 20 ++ imm.extractLsb' 0 12 := by
        rw [hzero, ← himm]
        rfl
    _ = imm := BitVec.extractLsb'_append_extractLsb' (w := 20) (len := 12)

/-- Of an even offset the J format loses no bit below bit 21. -/
theorem off21Of_encodeJ (h : off.toNat % 2 = 0) : off21Of (encodeJ off rd op) = off.extractLsb' 0 21 := by
  have hzero : off.extractLsb' 0 1 = 0#1 := extractLsb'_zero_of_mod_eq_zero h
  have h20 : (encodeJ off rd op).extractLsb' 31 1 = off.extractLsb' 20 1 := by
    rw [encodeJ]
    iterate 5 rw [BitVec.extractLsb'_append_eq_of_le (by decide)]
    exact BitVec.extractLsb'_eq_self
  have h10 : (encodeJ off rd op).extractLsb' 21 10 = off.extractLsb' 1 10 := by
    rw [encodeJ]
    iterate 4 rw [BitVec.extractLsb'_append_eq_of_le (by decide)]
    exact BitVec.extractLsb'_append_eq_right
  have h11 : (encodeJ off rd op).extractLsb' 20 1 = off.extractLsb' 11 1 := by
    rw [encodeJ]
    iterate 3 rw [BitVec.extractLsb'_append_eq_of_le (by decide)]
    exact BitVec.extractLsb'_append_eq_right
  have h19 : (encodeJ off rd op).extractLsb' 12 8 = off.extractLsb' 12 8 := by
    rw [encodeJ]
    iterate 2 rw [BitVec.extractLsb'_append_eq_of_le (by decide)]
    exact BitVec.extractLsb'_append_eq_right
  show (encodeJ off rd op).extractLsb' 31 1 ++ (encodeJ off rd op).extractLsb' 12 8 ++
    (encodeJ off rd op).extractLsb' 20 1 ++ (encodeJ off rd op).extractLsb' 21 10 ++ 0#1 = _
  rw [h20, h19, h11, h10, ← hzero, BitVec.extractLsb'_append_extractLsb'_eq_extractLsb' (show 20 = 12 + 8 from rfl),
    BitVec.extractLsb'_append_extractLsb'_eq_extractLsb' (show 12 = 11 + 1 from rfl),
    BitVec.extractLsb'_append_extractLsb'_eq_extractLsb' (show 11 = 1 + 10 from rfl),
    BitVec.extractLsb'_append_extractLsb'_eq_extractLsb' (show 1 = 0 + 1 from rfl)]

theorem offJOf_encodeJ (h : offJFits off = true) : offJOf (encodeJ off rd op) = off := by
  obtain ⟨hlow, hhigh, heven⟩ := of_decide_eq_true h
  rw [offJOf, off21Of_encodeJ heven]
  exact sext_extractLsb'_of_range (by decide) hlow (hhigh.trans_lt (by decide))

end

/-- The canonical word of a well-formed instruction holds the instruction's own operands. -/
theorem withOperandsOf_encode {i : Instr} (h : i.wf = true) : i.withOperandsOf (encode i) = i := by
  cases i <;> simp only [encode, Instr.withOperandsOf]
  case addi | slti | sltiu | xori | ori | andi | jalr =>
    rw [immIOf_encodeI h, encodeI_eq_encodeR, rdOf_encodeR, rs1Of_encodeR]
  case slli | srli | srai =>
    rw [shamtOf_encodeShift, encodeShift_eq_encodeR, rdOf_encodeR, rs1Of_encodeR]
  case lui | auipc => rw [rdOf_encodeU, immUOf_encodeU h]
  case add | sub | sll | slt | sltu | xor | srl | sra | or | and =>
    rw [rdOf_encodeR, rs1Of_encodeR, rs2Of_encodeR]
  case jal => rw [rdOf_encodeJ, offJOf_encodeJ h]

/-- The laws of Laws/PerInstr.lean, for every instruction at once. -/
theorem encodeMatchesTable (i : Instr) : encode i &&& tableMask i = tableMatch i := by
  cases i with
  | addi => exact Laws.EncodeMatchesTable.addi _ _ _
  | slti => exact Laws.EncodeMatchesTable.slti _ _ _
  | sltiu => exact Laws.EncodeMatchesTable.sltiu _ _ _
  | xori => exact Laws.EncodeMatchesTable.xori _ _ _
  | ori => exact Laws.EncodeMatchesTable.ori _ _ _
  | andi => exact Laws.EncodeMatchesTable.andi _ _ _
  | slli => exact Laws.EncodeMatchesTable.slli _ _ _
  | srli => exact Laws.EncodeMatchesTable.srli _ _ _
  | srai => exact Laws.EncodeMatchesTable.srai _ _ _
  | lui => exact Laws.EncodeMatchesTable.lui _ _
  | auipc => exact Laws.EncodeMatchesTable.auipc _ _
  | add => exact Laws.EncodeMatchesTable.add _ _ _
  | sub => exact Laws.EncodeMatchesTable.sub _ _ _
  | sll => exact Laws.EncodeMatchesTable.sll _ _ _
  | slt => exact Laws.EncodeMatchesTable.slt _ _ _
  | sltu => exact Laws.EncodeMatchesTable.sltu _ _ _
  | xor => exact Laws.EncodeMatchesTable.xor _ _ _
  | srl => exact Laws.EncodeMatchesTable.srl _ _ _
  | sra => exact Laws.EncodeMatchesTable.sra _ _ _
  | or => exact Laws.EncodeMatchesTable.or _ _ _
  | and => exact Laws.EncodeMatchesTable.and _ _ _
  | jal => exact Laws.EncodeMatchesTable.jal _ _
  | jalr => exact Laws.EncodeMatchesTable.jalr _ _ _

/-! ### The byte order of an instruction (R50) -/

theorem decodeBytes_bytesOfWord (w : Word) (rest : List Byte) :
    decodeBytes (bytesOfWord w ++ rest) = (decode w).map fun i => (i, rest) := by
  simp only [bytesOfWord, List.cons_append, List.nil_append, decodeBytes, wordOfBytes_byteOfWord]
  cases decode w <;> rfl

/-! ### The statements of 30_encoding.md -/

/-- Settles O15: the canonical word lies in the instruction's row and holds its operands. -/
theorem decodeOfEncodeIsTheInstruction : Obligations.DecodeOfEncodeIsTheInstruction := by
  intro i hwf
  rw [decode_of_row (encodeMatchesTable i), withOperandsOf_encode hwf]

/-- Settles O10: each field is a slice of the word, and imm_I a sign-extended one. -/
theorem fieldSlicesOfRIUFormats : Obligations.FieldSlicesOfRIUFormats := by
  intro w
  obtain ⟨hlow, hhigh⟩ := immIOf_range w
  refine ⟨fun k hk => ?_, fun k hk => ?_, fun k hk => ?_, fun k hk => ?_, fun k hk => ?_, fun k hk => ?_, rfl,
    fun k hk => ?_, fun k hk hk' => ?_, hlow, hhigh, immUOf_eq_and w⟩
  · exact getLsbD_extractLsb_eq (by omega) (Nat.zero_add k)
  · exact getLsbD_extractLsb_eq (by omega) rfl
  · exact getLsbD_extractLsb_eq (by omega) rfl
  · exact getLsbD_extractLsb_eq (by omega) rfl
  · exact getLsbD_extractLsb_eq (by omega) rfl
  · exact getLsbD_extractLsb_eq (by omega) rfl
  · exact (sext_getLsbD_low (by omega) (by decide)).trans (getLsbD_extractLsb_eq (by omega) rfl)
  · exact (sext_getLsbD_high hk hk').trans (getLsbD_extractLsb_eq (by decide) rfl)

/-- Settles O11: bits 20 to 0 are those of `off21`, and the bits above repeat its bit 20. -/
theorem jumpOffsetAssembly : Obligations.JumpOffsetAssembly := by
  intro w
  have hbit {k : Nat} (hk : k ≤ 20) : (offJOf w).getLsbD k = (off21Of w).getLsbD k := sext_getLsbD_low hk (by decide)
  obtain ⟨hlow, hhigh⟩ := offJOf_range w
  refine ⟨?_, fun k hk hk' => ?_, ?_, fun k hk hk' => ?_, fun k hk hk' => ?_, offJOf_even w, hlow, hhigh⟩
  · rw [hbit (by decide), off21Of_getLsbD w (by decide), if_pos rfl]
  · rw [hbit (by omega), off21Of_getLsbD w (by omega), if_neg (by omega), if_pos hk']
  · rw [hbit (by decide), off21Of_getLsbD w (by decide), if_neg (by decide), if_neg (by decide), if_pos rfl]
  · rw [hbit (by omega), off21Of_getLsbD w (by omega), if_neg (by omega), if_neg (by omega), if_neg (by omega), if_pos hk']
  · have htop : (off21Of w).getLsbD 20 = w.getLsbD 31 := off21Of_getLsbD w (Nat.le_refl 20)
    exact (sext_getLsbD_high hk hk').trans htop

/-- Settles O12: the row is `row_of_decode`, and the operands of a decoded instruction come from its word's fields. -/
theorem decodedWordLiesInItsTableRow : Obligations.DecodedWordLiesInItsTableRow := by
  intro w i h
  refine ⟨row_of_decode h, ?_⟩
  rw [← withOperandsOf_of_decode h]
  exact withOperandsOf_wf i w

/-- Settles O13: `decode_eq_error_iff` with the two fields as numbers; each of the six opcodes ends in the bits 11. -/
theorem unrecognisedExactlyOutsideTheMap : Obligations.UnrecognisedExactlyOutsideTheMap := by
  have hiff (w : Word) := decode_eq_error_iff w
  simp only [ne_eq, opcodeOf_eq_iff, funct3Of_eq_iff] at hiff
  refine ⟨hiff, (hiff _).2 (by decide), (hiff _).2 (by decide), fun w hw => (hiff w).2 (.inl ?_)⟩
  simp only [opcOpImm, opcLui, opcAuipc, opcOp, opcJal, opcJalr, BitVec.toNat_ofNat]
  omega

/-- Settles O14: the words agree in every field that the dispatch reads for their opcode and funct3. -/
theorem unreadBitsChangeNothing : Obligations.UnreadBitsChangeNothing := by
  refine fun w w' => ⟨fun h hop => ?_, fun h hrow => ?_, fun h hop h0 h5 => ?_, fun h hrow => ?_⟩
  · exact decode_congr_of_op (opcodeOf_of_and_eq rfl hop) (and_congr_submask rfl h) (.inl (b30Of_congr h))
  · exact decode_congr_of_shiftRight (opcodeOf_of_and_eq rfl hrow) (funct3Of_of_and_eq rfl hrow) (and_congr_submask rfl h)
      (b30Of_congr h)
  · have hop' : opcodeOf w = opcOp := opcodeOf_of_and_eq rfl hop
    refine decode_congr_of_op hop' h (.inr ⟨fun hf => h0 ?_, fun hf => h5 ?_⟩)
    · exact and_submask rfl (and_eq_of_funct3 (t := 0x00000033#32) rfl hop' hf)
    · exact and_submask rfl (and_eq_of_funct3 (t := 0x00005033#32) rfl hop' hf)
  · exact decode_congr_of_slli (opcodeOf_of_and_eq rfl hrow) (funct3Of_of_and_eq rfl hrow) h

/-- Settles O16: the bytes of a word decode as the word, and shorter lists fall through to the last case. -/
theorem fourBytesDecodeAsTheirWord : Obligations.FourBytesDecodeAsTheirWord := by
  refine ⟨fun w rest => ⟨fun i h => ?_, fun e h => ?_⟩, fun bs hlen => ?_⟩
  · rw [decodeBytes_bytesOfWord, h]
    rfl
  · rw [decodeBytes_bytesOfWord, h]
    rfl
  · match bs, hlen with
    | [], _ | [_], _ | [_, _], _ | [_, _, _], _ => rfl

end Sys2Proof
end

section
/-! PROOFS. The laws that the statements about the cycle and the runs need, and the proofs of those statements
(40_fetch_cycle.md). -/

namespace Sys2Proof.Machine

/-! ### What a cycle answers, by the case of its state (R80, R81, R85, R88) -/

/-- Before any fetch: a recorded fault stops the machine (R80). -/
theorem cycleUnder_of_fault {s : State} {r : FaultRecord} (p : IllegalPolicy) (h : s.fault = some r) :
    cycleUnder p s = .fault (.stopped r) := by
  simp only [cycleUnder, h]

section
variable {s : State} (p : IllegalPolicy) (hf : s.fault = none)
include hf

/-- A fetch that fails enters the fault without a word (R81). -/
theorem cycleUnder_of_fetch_error {c : FaultCause} (hc : memReadWord s.mem s.pc = .error c) :
    cycleUnder p s = .next (s.takeFault c none) := by
  simp only [cycleUnder, hf, fetch_eq, hc]

section
variable {w : Word} (hw : memReadWord s.mem s.pc = .ok w)
include hw

/-- A word that decodes is executed, whatever the policy (R85). -/
theorem cycleUnder_of_decode_ok {i : Instr} (hi : decode w = .ok i) : cycleUnder p s = exec i s := by
  simp only [cycleUnder, hf, fetch_eq, hw, runWord, hi]

/-- A word that does not decode is the policy's case (R88). -/
theorem cycleUnder_of_decode_error {e : DecodeReject} (he : decode w = .error e) :
    cycleUnder p s = unrecognised p w s := by
  simp only [cycleUnder, hf, fetch_eq, hw, runWord, he]

end

/-- A cycle that may begin answers a next state: none of its cases is a stop or a refusal (R89). -/
theorem cycleUnder_answers : ∃ t, cycleUnder p s = .next t := by
  cases hw : memReadWord s.mem s.pc with
  | error c => exact ⟨_, cycleUnder_of_fetch_error p hf hw⟩
  | ok w =>
    cases hi : decode w with
    | ok i => exact ⟨_, (cycleUnder_of_decode_ok p hf hw hi).trans (exec_eq i s)⟩
    | error e =>
      cases p with
      | fault => exact ⟨_, cycleUnder_of_decode_error .fault hf hw hi⟩
      | nop => exact ⟨_, cycleUnder_of_decode_error .nop hf hw hi⟩

end

/-- An instruction records no fault and clears none. -/
theorem exec_fault {i : Instr} {s t : State} (h : exec i s = .next t) : t.fault = s.fault := by
  rw [exec_eq] at h
  cases h
  simp

/-- A cycle commits exactly where it fetches a word that is an instruction or that the policy steps over (R86, R88). -/
theorem cycleUnder_fault_eq_none_iff {p : IllegalPolicy} {s t : State} (h : cycleUnder p s = .next t) :
    t.fault = none ↔ ∃ w, memReadWord s.mem s.pc = .ok w ∧ ((∃ i, decode w = .ok i) ∨ p = .nop) := by
  obtain ⟨hf, ⟨hc, -, rfl⟩ | ⟨w, i, hw, hi, hx⟩ | ⟨w, e, hw, he, ⟨rfl, rfl⟩ | ⟨rfl, rfl⟩⟩⟩ := cycleUnder_cases h
  · simp [hc]
  · exact ⟨fun _ => ⟨w, hw, .inl ⟨i, hi⟩⟩, fun _ => (exec_fault hx).trans hf⟩
  · simp [hw, he]
  · exact ⟨fun _ => ⟨w, hw, .inr rfl⟩, fun _ => hf⟩

/-! ### The outcome of a cycle (R86) -/

theorem outcomeOf_eq_failed_iff (t : State) (c : FaultCause) :
    outcomeOf t = .failed c ↔ ∃ r, t.fault = some r ∧ r.cause = c := by
  unfold outcomeOf
  cases t.fault <;> simp

theorem outcomeOf_ne_halted (t : State) : outcomeOf t ≠ .halted := by
  unfold outcomeOf
  cases t.fault <;> simp

/-! ### Bounded runs (R90) -/

/-- A bounded run from a state that holds a record executes nothing (R80). -/
theorem runBounded_of_fault {s : State} {r : FaultRecord} (p : IllegalPolicy) (n : Nat) (h : s.fault = some r) :
    runBoundedUnder p n s = ⟨s, []⟩ := by
  cases n with
  | zero => rfl
  | succ n => simp only [runBoundedUnder, cycleUnder_of_fault p h]

/-- How a bounded run ends: all `n` cycles commit, or `k < n` of them and then one fails. -/
theorem runBounded_outcomes (p : IllegalPolicy) (n : Nat) {s : State} (hf : s.fault = none) :
    ((runBoundedUnder p n s).outcomes = List.replicate n .continued ∧ (runBoundedUnder p n s).final.fault = none) ∨
    ∃ k r, k < n ∧ (runBoundedUnder p n s).final.fault = some r ∧
      (runBoundedUnder p n s).outcomes = List.replicate k .continued ++ [.failed r.cause] := by
  induction n generalizing s with
  | zero => exact .inl ⟨rfl, hf⟩
  | succ n ih =>
    obtain ⟨t, h⟩ := cycleUnder_answers p hf
    cases ht : t.fault with
    | some r =>
      rw [runBounded_succ_failed n h ht]
      exact .inr ⟨0, r, Nat.succ_pos n, ht, rfl⟩
    | none =>
      rw [runBounded_succ_committed n h ht, after_final, after_outcomes]
      obtain ⟨ho, hend⟩ | ⟨k, r, hk, hend, ho⟩ := ih ht
      · exact .inl ⟨by rw [ho, List.replicate_succ], hend⟩
      · exact .inr ⟨k + 1, r, Nat.succ_lt_succ hk, hend, by rw [ho, List.replicate_succ, List.cons_append]⟩

/-! ### Unbounded runs (R91) -/

@[simp] theorem hostMove_false (s : State) : hostMove false s = s := rfl
@[simp] theorem hostMove_true (s : State) : hostMove true s = hostWriteHalt true s := rfl

/-- A loop test that finds a record ends the run with no cycle, whatever `halt` holds. -/
theorem runUnbounded_cons_faulted {p : IllegalPolicy} {b : Bool} {s : State} {r : FaultRecord} (hs : List Bool)
    (h : (hostMove b s).fault = some r) : runUnboundedUnder p (b :: hs) s = (.ended, ⟨hostMove b s, []⟩) := by
  simp only [runUnboundedUnder, cycleUnder_of_fault p h, ite_self]

/-- A run that has ended was ended by the loop test: it holds `halt` or a record. -/
theorem runUnbounded_ended {p : IllegalPolicy} {hs : List Bool} {s : State}
    (h : (runUnboundedUnder p hs s).1 = .ended) :
    (runUnboundedUnder p hs s).2.final.halt = true ∨ (runUnboundedUnder p hs s).2.final.fault ≠ none := by
  induction hs generalizing s with
  | nil => cases h
  | cons b hs ih =>
    cases hhalt : (hostMove b s).halt with
    | true =>
      rw [runUnbounded_cons_halted hs hhalt]
      exact .inl hhalt
    | false =>
      cases hf : (hostMove b s).fault with
      | some r =>
        rw [runUnbounded_cons_faulted hs hf]
        exact .inr (by simp [hf])
      | none =>
        obtain ⟨t, ht⟩ := cycleUnder_answers p hf
        rw [runUnbounded_cons_next hs hhalt ht] at h ⊢
        exact ih h

/-! ### The addresses a run executes from (R91) -/

/-- The converse of `run_succ_next`, as an equation. -/
theorem run_succ_of_step {s u : State} (n : Nat) (h : step s = .next u) : core.run (n + 1) s = core.run n u := by
  have hcore : core.step s = .next u := h
  simp only [Host.Core.run, hcore]

/-- The run of `m + n` steps passes through the state after `m`. -/
theorem run_add_next {m n : Nat} {s t : State} (h : core.run (m + n) s = .next t) :
    ∃ u, core.run m s = .next u ∧ core.run n u = .next t := by
  induction m generalizing s with
  | zero => exact ⟨s, rfl, by rwa [Nat.zero_add] at h⟩
  | succ m ih =>
    rw [Nat.add_right_comm] at h
    obtain ⟨v, hstep, hrun⟩ := run_succ_next h
    obtain ⟨u, hv, hu⟩ := ih hrun
    exact ⟨u, (run_succ_of_step m hstep).trans hv, hu⟩

/-- A run that ends without a fault began without one, since no step leaves a record (60_exceptions.md R168). -/
theorem RunsCleanly.start_fault {n : Nat} {s t : State} (h : RunsCleanly n s t) : s.fault = none := by
  obtain ⟨hrun, ht⟩ := h
  cases n with
  | zero =>
    cases hrun
    exact ht
  | succ n =>
    obtain ⟨u, hstep, -⟩ := run_succ_next hrun
    exact (step_cases hstep).1

/-- A step that raises nothing fetched inside the store (R81). -/
theorem step_pc_lt_of_committed {s t : State} (h : step s = .next t) (ht : t.fault = none) :
    s.pc.toNat + 3 < Config.memSize := by
  obtain ⟨w, hw, -⟩ := (cycleUnder_fault_eq_none_iff (p := Config.illegalPolicy) h).1 ht
  exact (memReadWord_ok hw).1

/-- Each cycle of a run without a fault begins at one of the 65533 addresses that can be fetched from. -/
theorem RunsCleanly.visits {n i : Nat} {s t : State} (h : RunsCleanly n s t) (hi : i < n) :
    ∃ u, RunsCleanly i s u ∧ u.pc.toNat < 65533 := by
  obtain ⟨k, rfl⟩ := Nat.exists_eq_add_of_lt hi
  obtain ⟨hrun, ht⟩ := h
  obtain ⟨u, hu, hrest⟩ := run_add_next (m := i) (n := k + 1) hrun
  obtain ⟨v, hstep, hv⟩ := run_succ_next hrest
  have hpc := step_pc_lt_of_committed hstep (RunsCleanly.start_fault ⟨hv, ht⟩)
  exact ⟨u, ⟨hu, RunsCleanly.start_fault ⟨hrest, ht⟩⟩, Nat.lt_of_add_lt_add_right hpc⟩

/-! ### The tracer (R92) -/

theorem traceOf_of_decode_ok {s t : State} {w : Word} {i : Instr} (hf : s.fault = none)
    (hw : memReadWord s.mem s.pc = .ok w) (hi : decode w = .ok i) (hx : exec i s = .next t) :
    traceOf s = some ⟨s.pc, w, mnemonicOf i, i, i.sources.map s.readReg, t.readReg i.rd⟩ := by
  simp only [traceOf, hf, fetch_eq, hw, hi, hx]

/-- The tracer's record comes only from a cycle that may begin, fetches a word and decodes it. -/
theorem decodes_of_traceOf {s : State} {r : TraceRecord} (h : traceOf s = some r) :
    s.fault = none ∧ ∃ w i, memReadWord s.mem s.pc = .ok w ∧ decode w = .ok i := by
  unfold traceOf at h
  rw [fetch_eq] at h
  cases hf : s.fault with
  | some => simp [hf] at h
  | none =>
    refine ⟨rfl, ?_⟩
    cases hw : memReadWord s.mem s.pc with
    | error => simp [hf, hw] at h
    | ok w =>
      cases hi : decode w with
      | error => simp [hf, hw, hi] at h
      | ok i => exact ⟨w, i, rfl, hi⟩

/-! ### The statements of 40_fetch_cycle.md -/

/-- Settles O47, by the cases of a cycle: an instruction and a skipped word leave no record, and each of the two raising
cases is a fault entry with its own record. -/
theorem raisingCycleChangesOnlyTheRecord : Obligations.RaisingCycleChangesOnlyTheRecord := by
  intro p s t r h hr
  obtain ⟨hf, ⟨hc, -, rfl⟩ | ⟨w, i, -, -, hx⟩ | ⟨w, e, hw, he, ⟨rfl, rfl⟩ | ⟨rfl, rfl⟩⟩⟩ := cycleUnder_cases h
  · cases hr
    exact ⟨rfl, rfl, nofun, .inl ⟨rfl, rfl, hc⟩⟩
  · rw [exec_fault hx, hf] at hr
    cases hr
  · cases hr
    exact ⟨rfl, rfl, nofun, .inr ⟨rfl, rfl, w, e, rfl, hw, he⟩⟩
  · rw [setPc_fault, hf] at hr
    cases hr

/-- Settles O49: the next state is that of `cycleUnder_answers`, and its outcome is read from its record. -/
theorem everyCycleCommitsOrFaults : Obligations.EveryCycleCommitsOrFaults := by
  intro p s hf
  obtain ⟨t, h⟩ := cycleUnder_answers p hf
  exact ⟨t, h, (outcomeOf_continued t).trans (cycleUnder_fault_eq_none_iff h), outcomeOf_eq_failed_iff t,
    outcomeOf_ne_halted t⟩

/-- Settles O56: the ways a bounded run ends, by induction on its length, and its equations. -/
theorem boundedRunStopsAtFirstFailure : Obligations.BoundedRunStopsAtFirstFailure :=
  fun p n _ => ⟨runBounded_outcomes p n, rfl, fun _ => runBounded_succ_committed n, fun _ _ => runBounded_succ_failed n,
    fun _ => rfl⟩

/-- Settles O57: how an unbounded run ends, by induction on its schedule, and its equations. -/
theorem unboundedRunEndsOnlyByHaltOrFault : Obligations.UnboundedRunEndsOnlyByHaltOrFault := by
  refine fun p hs s => ⟨runUnbounded_ended, runUnbounded_cons_halted hs rfl, runUnbounded_cons_halted (b := false) hs,
    fun hf => ?_, rfl, fun t hh h => ?_, fun _ => rfl⟩
  · obtain ⟨r, hr⟩ := Option.ne_none_iff_exists'.1 hf
    exact runUnbounded_cons_faulted (b := false) hs hr
  · rw [runUnbounded_cons_next (b := false) hs hh h]
    exact ⟨rfl, rfl, rfl⟩

/-- Settles O58, by the pigeonhole principle: the run's first `n` states lie at fewer than `n` addresses. -/
theorem longFaultFreeRunRevisitsAnAddress : Obligations.LongFaultFreeRunRevisitsAnAddress := by
  intro s t n hn h
  choose u hu hpc using fun i : Fin n => h.visits i.isLt
  have hcard : (Finset.range 65533).card < (Finset.univ : Finset (Fin n)).card := by
    rw [Finset.card_range, Finset.card_fin]
    omega
  obtain ⟨i, -, j, -, hne, hij⟩ := Finset.exists_ne_map_eq_of_card_lt_of_maps_to hcard
    (f := fun i => (u i).pc.toNat) fun i _ => Finset.mem_range.2 (hpc i)
  have heq : (u i).pc = (u j).pc := BitVec.eq_of_toNat_eq hij
  obtain hlt | hgt := Nat.lt_or_gt_of_ne (Fin.val_ne_of_ne hne)
  · exact ⟨i, j, u i, u j, hlt, j.isLt, hu i, hu j, heq⟩
  · exact ⟨j, i, u j, u i, hgt, i.isLt, hu j, hu i, heq.symm⟩

/-- Settles O43: the cycle's case of a decoded word, which a step takes under this hardware's policy. -/
theorem stepRunsTheDecodedInstruction : Obligations.StepRunsTheDecodedInstruction :=
  fun _ _ _ hf hw hi => ⟨cycleUnder_of_decode_ok Config.illegalPolicy hf hw hi, fun p => cycleUnder_of_decode_ok p hf hw hi⟩

/-- Settles O60: the record is that of the executed instruction, and a record never comes without one. -/
theorem tracerSeesEachDecodedInstruction : Obligations.TracerSeesEachDecodedInstruction := by
  refine ⟨fun s w i hf hw hi => ?_, fun s h => ?_⟩
  · have hx := exec_eq i s
    obtain ⟨hstep, -⟩ := stepRunsTheDecodedInstruction s w i hf hw hi
    exact ⟨_, hstep.trans hx, traceOf_of_decode_ok hf hw hi hx⟩
  · refine Option.eq_none_iff_forall_ne_some.2 fun r hr => ?_
    obtain ⟨hf, w, i, hw, hi⟩ := decodes_of_traceOf hr
    obtain h | ⟨c, hc⟩ | ⟨w', e, hw', he⟩ := h
    · exact h hf
    · rw [hw] at hc
      cases hc
    · rw [hw] at hw'
      cases hw'
      rw [hi] at he
      cases he

/-- Settles O46: NOP's answer to a word that does not decode. -/
theorem nopPolicyAdvancesOverUnrecognisedWord : Obligations.NopPolicyAdvancesOverUnrecognisedWord :=
  fun _ _ _ hf hw he => cycleUnder_of_decode_error .nop hf hw he

/-- Settles O48: the cycle's guard, under which a bounded run executes nothing. -/
theorem faultedMachineExecutesNoCycle : Obligations.FaultedMachineExecutesNoCycle :=
  fun _ _ h => ⟨cycleUnder_of_fault Config.illegalPolicy h, fun p => cycleUnder_of_fault p h,
    fun p n => runBounded_of_fault p n h⟩

end Sys2Proof.Machine
end

section
/-! PROOFS. The laws that the statements about the OP-IMM instructions need, and the proofs of those statements
(41_op_imm.md). -/

namespace Sys2Proof

section
variable {rd rs1 rs2 : Reg} {f3 : BitVec 3} {f7 op : BitVec 7} {shamt : Shamt}

/-- Bits 31 to 25 of an R-format word, as a number (30_encoding.md R51). -/
theorem encodeR_toNat_div : (encodeR f7 rs2 rs1 f3 rd op).toNat / 2 ^ 25 = f7.toNat := by
  have hf7 : (encodeR f7 rs2 rs1 f3 rd op).extractLsb' 25 7 = f7 := by
    rw [encodeR]
    iterate 5 rw [BitVec.extractLsb'_append_eq_of_le (by decide)]
    exact BitVec.extractLsb'_eq_self
  rw [← congrArg BitVec.toNat hf7, BitVec.extractLsb'_toNat, Nat.shiftRight_eq_div_pow]
  omega

theorem encodeShift_toNat_div : (encodeShift f7 shamt rs1 f3 rd op).toNat / 2 ^ 25 = f7.toNat := by
  rw [encodeShift_eq_encodeR, encodeR_toNat_div]

end

end Sys2Proof

namespace Sys2Proof.Machine

/-! ### The ALU as arithmetic of numbers and bits (43_op.md R130, R131, R132) -/

theorem truthWord_decide (p : Prop) [Decidable p] : truthWord (decide p) = if p then 1#32 else 0#32 := by
  simp only [truthWord, decide_eq_true_eq]

section
variable (a b : Word) (n : Shamt)

theorem aluAdd_eq_ofNat : aluAdd a b = BitVec.ofNat 32 (a.toNat + b.toNat) :=
  BitVec.add_def a b

theorem aluSlt_eq_ite : aluSlt a b = if a.toInt < b.toInt then 1#32 else 0#32 := by
  rw [aluSlt, ltSigned, BitVec.slt_eq_decide, truthWord_decide]

theorem aluSltu_eq_ite : aluSltu a b = if a.toNat < b.toNat then 1#32 else 0#32 := by
  rw [aluSltu, ltUnsigned, BitVec.ult, truthWord_decide]

@[simp] theorem aluXor_getLsbD (k : Nat) : (aluXor a b).getLsbD k = xor (a.getLsbD k) (b.getLsbD k) :=
  BitVec.getLsbD_xor

@[simp] theorem aluOr_getLsbD (k : Nat) : (aluOr a b).getLsbD k = (a.getLsbD k || b.getLsbD k) :=
  BitVec.getLsbD_or

@[simp] theorem aluAnd_getLsbD (k : Nat) : (aluAnd a b).getLsbD k = (a.getLsbD k && b.getLsbD k) :=
  BitVec.getLsbD_and

theorem aluSll_eq_ofNat : aluSll a n = BitVec.ofNat 32 (a.toNat * 2 ^ n.toNat) := by
  apply BitVec.eq_of_toNat_eq
  rw [aluSll, BitVec.toNat_shiftLeft, Nat.shiftLeft_eq, BitVec.toNat_ofNat]

/-- The quotient is below 2^32 already, so no reduction takes place. -/
theorem aluSrl_eq_ofNat : aluSrl a n = BitVec.ofNat 32 (a.toNat / 2 ^ n.toNat) := by
  have hlt : a.toNat / 2 ^ n.toNat < 2 ^ 32 := (Nat.div_le_self _ _).trans_lt a.isLt
  apply BitVec.eq_of_toNat_eq
  rw [aluSrl, BitVec.toNat_ushiftRight, Nat.shiftRight_eq_div_pow, BitVec.toNat_ofNat, Nat.mod_eq_of_lt hlt]

/-- Integer division by a positive number is the floor that R131 asks for. -/
theorem aluSra_eq_ofInt : aluSra a n = BitVec.ofInt 32 (a.toInt / 2 ^ n.toNat) := by
  rw [aluSra, BitVec.sshiftRight_eq, Int.shiftRight_eq_div_pow, Nat.cast_pow, Nat.cast_ofNat]

end

/-! ### The completion of an instruction that does not jump (R100) -/

/-- `CommitsTo` for every instruction but the jumps: its result goes to its destination, and the pc goes on. -/
theorem commitsTo_resultOf {i : Instr} (s : State) (hi : i.isJump = false) :
    CommitsTo i s i.rd (resultOf s i) (s.pc + 4#32) := by
  apply commitsTo_of_exec_eq
  rw [exec_eq, targetOf_of_not_isJump s hi]

theorem commitsTo_of_resultOf_eq {i : Instr} {s : State} {v : Word} (hi : i.isJump = false) (hv : resultOf s i = v) :
    CommitsTo i s i.rd v (s.pc + 4#32) :=
  hv ▸ commitsTo_resultOf s hi

/-! ### The statements of 41_op_imm.md -/

/-- Settles O18: the row is `decodesRow`, and the result is the ALU's sum. -/
theorem addiAddsImmediateModulo : Obligations.AddiAddsImmediateModulo :=
  ⟨decodesRow (.addi 0 0 0), fun _ _ _ _ => commitsTo_of_resultOf_eq rfl (aluAdd_eq_ofNat _ _), by decide, by decide⟩

/-- Settles O19: the row is `decodesRow`, and the result is the ALU's signed comparison. -/
theorem sltiComparesSigned : Obligations.SltiComparesSigned :=
  ⟨decodesRow (.slti 0 0 0), fun _ _ _ _ => commitsTo_of_resultOf_eq rfl (aluSlt_eq_ite _ _), by decide⟩

/-- Settles O20: the row is `decodesRow`, and the result is the ALU's unsigned comparison. -/
theorem sltiuComparesUnsigned : Obligations.SltiuComparesUnsigned :=
  ⟨decodesRow (.sltiu 0 0 0), fun _ _ _ _ => commitsTo_of_resultOf_eq rfl (aluSltu_eq_ite _ _), by decide⟩

/-- Settles O21: the row is `decodesRow`, and the bits are those of the ALU's exclusive or. -/
theorem xoriIsBitwiseExclusiveOr : Obligations.XoriIsBitwiseExclusiveOr :=
  ⟨decodesRow (.xori 0 0 0), fun _ _ _ s => ⟨_, commitsTo_resultOf s rfl, fun k _ => aluXor_getLsbD _ _ k⟩,
    by decide, by decide⟩

/-- Settles O22: the row is `decodesRow`, and the bits are those of the ALU's or. -/
theorem oriIsBitwiseOr : Obligations.OriIsBitwiseOr :=
  ⟨decodesRow (.ori 0 0 0), fun _ _ _ s => ⟨_, commitsTo_resultOf s rfl, fun k _ => aluOr_getLsbD _ _ k⟩, by decide⟩

/-- Settles O23: the row is `decodesRow`, and the bits are those of the ALU's and. -/
theorem andiIsBitwiseAnd : Obligations.AndiIsBitwiseAnd :=
  ⟨decodesRow (.andi 0 0 0), fun _ _ _ s => ⟨_, commitsTo_resultOf s rfl, fun k _ => aluAnd_getLsbD _ _ k⟩, by decide⟩

/-- Settles O24: the row is `decodesRow`, the result is the ALU's left shift, and the canonical word's funct7 is 0. -/
theorem slliShiftsLeftByFiveBits : Obligations.SlliShiftsLeftByFiveBits :=
  ⟨decodesRow (.slli 0 0 0), fun _ _ _ _ => commitsTo_of_resultOf_eq rfl (aluSll_eq_ofNat _ _),
    fun _ _ _ => encodeShift_toNat_div, by decide⟩

/-- Settles O25: the row is `decodesRow`, the result is the ALU's logical right shift, and the canonical word's funct7
is 0. -/
theorem srliShiftsRightLogically : Obligations.SrliShiftsRightLogically :=
  ⟨decodesRow (.srli 0 0 0), fun _ _ _ _ => commitsTo_of_resultOf_eq rfl (aluSrl_eq_ofNat _ _),
    fun _ _ _ => encodeShift_toNat_div, by decide⟩

/-- Settles O26: the row is `decodesRow`, the result is the ALU's arithmetic right shift, and the canonical word's funct7
is 0100000. -/
theorem sraiShiftsRightKeepingTheSign : Obligations.SraiShiftsRightKeepingTheSign :=
  ⟨decodesRow (.srai 0 0 0), fun _ _ _ _ => commitsTo_of_resultOf_eq rfl (aluSra_eq_ofInt _ _),
    fun _ _ _ => encodeShift_toNat_div, by decide⟩

end Sys2Proof.Machine
end

section
/-! PROOFS. The value of the U-type immediate, and the proofs of the statements about LUI and AUIPC (42_upper_imm.md). -/

namespace Sys2Proof

/-- The U-type immediate drops bits 11 to 0 of the word and keeps the others in place (R56). -/
theorem immUOf_toNat (w : Word) : (immUOf w).toNat = w.toNat / 2 ^ 12 * 2 ^ 12 := by
  have hhigh : (w.extractLsb 31 12).toNat = w.toNat / 2 ^ 12 := by
    rw [BitVec.extractLsb_toNat, Nat.shiftRight_eq_div_pow]
    exact Nat.mod_eq_of_lt (Nat.div_lt_of_lt_mul w.isLt)
  rw [immUOf, BitVec.toNat_append, BitVec.toNat_zero, Nat.or_zero, Nat.shiftLeft_eq, hhigh]

end Sys2Proof

namespace Sys2Proof.Machine

/-! ### The statements of 42_upper_imm.md -/

/-- Settles O27: the row is `decodesRow`, and the result is the immediate itself. -/
theorem luiPlacesTheUpperImmediate : Obligations.LuiPlacesTheUpperImmediate :=
  ⟨decodesRow (.lui 0 0), fun _ _ _ => commitsTo_of_resultOf_eq rfl rfl, immUOf_toNat, by decide⟩

/-- Settles O28: the row is `decodesRow`, and the result is the ALU's sum with the pc at the start of the cycle. -/
theorem auipcAddsToItsOwnAddress : Obligations.AuipcAddsToItsOwnAddress :=
  ⟨decodesRow (.auipc 0 0), fun _ _ _ => commitsTo_of_resultOf_eq rfl (aluAdd_eq_ofNat _ _), by decide, by decide⟩

end Sys2Proof.Machine
end

section
/-! PROOFS. The subtraction and the register shift amount as numbers, and the proofs of the statements about the OP
instructions (43_op.md). -/

namespace Sys2Proof.Machine

/-- Subtraction modulo 2^32 of the unsigned values (R144). -/
theorem aluSub_eq_ofInt (a b : Word) : aluSub a b = BitVec.ofInt 32 ((a.toNat : Int) - (b.toNat : Int)) := by
  rw [Int.sub_eq_add_neg, BitVec.ofInt_add, BitVec.ofInt_neg, BitVec.ofInt_natCast, BitVec.ofInt_natCast,
    BitVec.ofNat_toNat, BitVec.ofNat_toNat, BitVec.setWidth_eq, BitVec.setWidth_eq, ← BitVec.sub_eq_add_neg, aluSub]

/-- The low five bits of a register, as a number (R131). -/
theorem shamtOfReg_toNat (v : Word) : (shamtOfReg v).toNat = v.toNat % 32 :=
  BitVec.extractLsb_toNat 4 0 v

/-! ### The statements of 43_op.md -/

/-- Settles O29: the row is `decodesRow`, and the result is the ALU's sum. -/
theorem addAddsModulo : Obligations.AddAddsModulo :=
  ⟨decodesRow (.add 0 0 0), fun _ _ _ _ => commitsTo_of_resultOf_eq rfl (aluAdd_eq_ofNat _ _),
    by decide, by decide, by decide⟩

/-- Settles O30: the row is `decodesRow`, and the result is the ALU's difference, `x[rs2]` taken from `x[rs1]`. -/
theorem subSubtractsModulo : Obligations.SubSubtractsModulo :=
  ⟨decodesRow (.sub 0 0 0), fun _ _ _ _ => commitsTo_of_resultOf_eq rfl (aluSub_eq_ofInt _ _), by decide, by decide⟩

/-- Settles O31: the row is `decodesRow`, and the result is the ALU's left shift by the low five bits of `x[rs2]`. -/
theorem sllShiftsLeftByLowFiveBits : Obligations.SllShiftsLeftByLowFiveBits :=
  ⟨decodesRow (.sll 0 0 0), fun _ _ _ _ => commitsTo_of_resultOf_eq rfl (shamtOfReg_toNat _ ▸ aluSll_eq_ofNat _ _),
    by decide⟩

/-- Settles O32: the row is `decodesRow`, and the result is the ALU's signed comparison. -/
theorem sltComparesSigned : Obligations.SltComparesSigned :=
  ⟨decodesRow (.slt 0 0 0), fun _ _ _ _ => commitsTo_of_resultOf_eq rfl (aluSlt_eq_ite _ _), by decide⟩

/-- Settles O33: the row is `decodesRow`, and the result is the ALU's unsigned comparison. -/
theorem sltuComparesUnsigned : Obligations.SltuComparesUnsigned :=
  ⟨decodesRow (.sltu 0 0 0), fun _ _ _ _ => commitsTo_of_resultOf_eq rfl (aluSltu_eq_ite _ _), by decide⟩

/-- Settles O34: the row is `decodesRow`, and the bits are those of the ALU's exclusive or. -/
theorem xorIsBitwiseExclusiveOr : Obligations.XorIsBitwiseExclusiveOr :=
  ⟨decodesRow (.xor 0 0 0), fun _ _ _ s => ⟨_, commitsTo_resultOf s rfl, fun k _ => aluXor_getLsbD _ _ k⟩, by decide⟩

/-- Settles O35: the row is `decodesRow`, and the result is the ALU's logical right shift by the low five bits of
`x[rs2]`. -/
theorem srlShiftsRightLogically : Obligations.SrlShiftsRightLogically :=
  ⟨decodesRow (.srl 0 0 0), fun _ _ _ _ => commitsTo_of_resultOf_eq rfl (shamtOfReg_toNat _ ▸ aluSrl_eq_ofNat _ _),
    by decide⟩

/-- Settles O36: the row is `decodesRow`, and the result is the ALU's arithmetic right shift by the low five bits of
`x[rs2]`. -/
theorem sraShiftsRightKeepingTheSign : Obligations.SraShiftsRightKeepingTheSign :=
  ⟨decodesRow (.sra 0 0 0), fun _ _ _ _ => commitsTo_of_resultOf_eq rfl (shamtOfReg_toNat _ ▸ aluSra_eq_ofInt _ _),
    by decide⟩

/-- Settles O37: the row is `decodesRow`, and the bits are those of the ALU's or. -/
theorem orIsBitwiseOr : Obligations.OrIsBitwiseOr :=
  ⟨decodesRow (.or 0 0 0), fun _ _ _ s => ⟨_, commitsTo_resultOf s rfl, fun k _ => aluOr_getLsbD _ _ k⟩, by decide⟩

/-- Settles O38: the row is `decodesRow`, and the bits are those of the ALU's and. -/
theorem andIsBitwiseAnd : Obligations.AndIsBitwiseAnd :=
  ⟨decodesRow (.and 0 0 0), fun _ _ _ s => ⟨_, commitsTo_resultOf s rfl, fun k _ => aluAnd_getLsbD _ _ k⟩, by decide⟩

end Sys2Proof.Machine
end

section
/-! PROOFS. The link value and the two targets of a jump as numbers, and the proofs of the statements about JAL and JALR
(44_jump.md). -/

namespace Sys2Proof.Machine

/-! ### The link value and the targets (R150 to R152) -/

/-- The link value of a jump is the address after it, modulo 2^32 (R150). -/
theorem nextPc_eq_ofNat (s : State) : s.nextPc = BitVec.ofNat 32 (s.pc.toNat + 4) :=
  aluAdd_eq_ofNat s.pc 4#32

/-- With a signed second operand the sum modulo 2^32 is the same, so an offset may be negative (R151). -/
theorem aluAdd_eq_ofInt (a b : Word) : aluAdd a b = BitVec.ofInt 32 ((a.toNat : Int) + b.toInt) := by
  rw [BitVec.ofInt_add, BitVec.ofInt_natCast, BitVec.ofNat_toNat, BitVec.setWidth_eq, BitVec.ofInt_toInt, aluAdd]

/-- JALR's mask clears bit 0 and keeps the others: the value goes one place right and back (R152). -/
theorem aluAnd_evenMask_toNat (v : Word) : (aluAnd v 0xFFFFFFFE#32).toNat = v.toNat / 2 * 2 := by
  have hmask : aluAnd v 0xFFFFFFFE#32 = v >>> 1 <<< 1 := by
    rw [BitVec.shiftLeft_ushiftRight]
    rfl
  have hlt : v.toNat / 2 * 2 < 2 ^ 32 := (Nat.div_mul_le_self _ _).trans_lt v.isLt
  rw [hmask, BitVec.toNat_shiftLeft, BitVec.toNat_ushiftRight, Nat.shiftRight_eq_div_pow, Nat.shiftLeft_eq]
  exact Nat.mod_eq_of_lt hlt

/-- 2^32 is even, so clearing bit 0 commutes with the reduction of the sum (R152). -/
theorem jalrTarget_eq_ofNat (rs1 : Reg) (imm : Word) (s : State) :
    jalrTarget rs1 imm s = BitVec.ofNat 32 (((s.readReg rs1).toNat + imm.toNat) / 2 * 2) := by
  apply BitVec.eq_of_toNat_eq
  rw [jalrTarget, aluAnd_evenMask_toNat, aluAdd_eq_ofNat, BitVec.toNat_ofNat, BitVec.toNat_ofNat]
  omega

/-! ### The completion of any instruction (10_state.md R12, R15) -/

/-- `exec_eq` as a completion: the result goes to the destination and the target to the pc. -/
theorem commitsTo_of_result_target {i : Instr} {s : State} {v target : Word} (hv : resultOf s i = v)
    (ht : targetOf s i = target) : CommitsTo i s i.rd v target := by
  apply commitsTo_of_exec_eq
  rw [exec_eq, hv, ht]

/-! ### The statements of 44_jump.md -/

/-- Settles O39: the row is `decodesRow`, the result is the link value, and the target is the ALU's sum of the pc and
the signed offset. -/
theorem jalLinksAndJumpsByByteOffset : Obligations.JalLinksAndJumpsByByteOffset :=
  ⟨decodesRow (.jal 0 0), fun _ _ s => commitsTo_of_result_target (nextPc_eq_ofNat s) (aluAdd_eq_ofInt _ _),
    by decide, by decide, by decide⟩

/-- Settles O40: the row is `decodesRow`, the result is the link value, and the target is the sum with `x[rs1]` as it was
before the link write, made even. -/
theorem jalrLinksAndJumpsIndirectly : Obligations.JalrLinksAndJumpsIndirectly :=
  ⟨decodesRow (.jalr 0 0 0), fun _ _ _ s => commitsTo_of_result_target (nextPc_eq_ofNat s) (jalrTarget_eq_ofNat _ _ s),
    by decide, by decide⟩

end Sys2Proof.Machine
end

section
/-! PROOFS. The two ways in which a step raises (60_exceptions.md). -/

namespace Sys2Proof.Machine

/-- Settles O44: beyond the bound the fetch fails, and the cycle then enters the fault without a word. -/
theorem fetchBeyondTheStoreFaults : Obligations.FetchBeyondTheStoreFaults :=
  fun _ hf hb => cycleUnder_of_fetch_error Config.illegalPolicy hf (memReadWord_eq_error hb)

/-- Settles O45: a word that does not decode is the policy's case, and this hardware's policy enters the fault with it. -/
theorem unrecognisedWordRaisesIllegalInstruction : Obligations.UnrecognisedWordRaisesIllegalInstruction :=
  fun _ _ _ hf hw he => cycleUnder_of_decode_error Config.illegalPolicy hf hw he

end Sys2Proof.Machine
end

section
/-! PROOFS. What the loader's writes, the seeds and the start of a run leave unchanged, and the proofs of the statements of
70_reset_and_hazards.md. -/

namespace Sys2Proof.Machine

/-! ### The loader's word write (R194) -/

theorem loadWord_eq_ok {a : Word} {s : State} (v : Word) (h : a.toNat + 3 < Config.memSize) :
    loadWord a v s = .ok { s with mem := setWord s.mem a.toNat v } := by
  rw [loadWord, memWriteWord_eq_ok h]

theorem loadWord_eq_error {a v : Word} {s : State} (h : a.toNat + 3 ≥ Config.memSize) :
    loadWord a v s = .error .outOfBounds := by
  rw [loadWord, memWriteWord_eq_error h]

/-! ### Seeding (R193) -/

/-- What every single seed of a list leaves as it was, the whole list leaves as it was. -/
theorem seedRegs_unchanged {α : Type} (f : State → α) {seeds : List (Reg × Word)}
    (h : ∀ seed ∈ seeds, ∀ s : State, f (s.writeReg seed.1 seed.2) = f s) (s : State) :
    f (seedRegs seeds s) = f s := by
  induction seeds generalizing s with
  | nil => rfl
  | cons seed later ih =>
    obtain ⟨hseed, hlater⟩ := List.forall_mem_cons.1 h
    rw [seedRegs_cons, ih hlater, hseed]

section
variable (seeds : List (Reg × Word)) (s : State)

@[simp] theorem seedRegs_pc : (seedRegs seeds s).pc = s.pc :=
  seedRegs_unchanged State.pc (fun _ _ s => writeReg_pc s _ _) s

@[simp] theorem seedRegs_halt : (seedRegs seeds s).halt = s.halt :=
  seedRegs_unchanged State.halt (fun _ _ s => writeReg_halt s _ _) s

@[simp] theorem seedRegs_fault : (seedRegs seeds s).fault = s.fault :=
  seedRegs_unchanged State.fault (fun _ _ s => writeReg_fault s _ _) s

@[simp] theorem seedRegs_mem : (seedRegs seeds s).mem = s.mem :=
  seedRegs_unchanged State.mem (fun _ _ s => writeReg_mem s _ _) s

theorem seedRegs_slot_zero : (seedRegs seeds s).regs.get 0 = s.regs.get 0 :=
  seedRegs_unchanged (fun s => s.regs.get 0) (fun _ _ s => writeReg_slot_zero s _ _) s

end

/-- A register that no seed names reads as before. -/
theorem seedRegs_readReg_of_notMem {seeds : List (Reg × Word)} {r : Reg} (hr : r ∉ seeds.map Prod.fst) (s : State) :
    (seedRegs seeds s).readReg r = s.readReg r := by
  refine seedRegs_unchanged (fun s => s.readReg r) (fun seed hseed s => ?_) s
  have hne : r ≠ seed.1 := fun h => hr (h ▸ List.mem_map_of_mem hseed)
  rw [writeReg_readReg, if_neg (fun h => hne h.1)]

/-- The last seed of a register other than x0 is what it reads. -/
theorem seedRegs_readReg_of_last {later : List (Reg × Word)} {r : Reg} (early : List (Reg × Word)) (v : Word)
    (hr : r ≠ 0) (hlater : r ∉ later.map Prod.fst) (s : State) :
    (seedRegs (early ++ (r, v) :: later) s).readReg r = v := by
  rw [seedRegs_append, seedRegs_cons, seedRegs_readReg_of_notMem hlater, writeReg_readReg, if_pos ⟨rfl, hr⟩]

/-! ### The host's preparation and the invariant (R193 to R195, 10_state.md R17) -/

/-- With no fault recorded, the invariant is about memory and slot 0 alone, so it passes to every state that agrees on
slot 0 and whose memory is canonical. -/
theorem inv_of_slot_zero_eq {s t : State} (hs : s.Inv) (hmem : t.mem.wf) (hzero : t.regs.get 0 = s.regs.get 0)
    (hf : t.fault = none) : t.Inv ∧ t.fault = none := by
  obtain ⟨-, hslot, -⟩ := hs
  exact ⟨⟨hmem, hzero.trans hslot, faultTrue_of_none hf⟩, hf⟩

/-! ### The statements of 70_reset_and_hazards.md -/

/-- Settles O7: in bounds the new state is the old one with the word stored, and the word reads back. -/
theorem loaderWordWriteSetsOnlyMemoryOrFails : Obligations.LoaderWordWriteSetsOnlyMemoryOrFails :=
  fun _ a v hm => ⟨loadWord_eq_error, fun ha =>
    ⟨_, loadWord_eq_ok v ha, setWord_wf _ a.toNat v ha hm, memReadWord_setWord v hm ha, rfl, rfl, rfl, rfl⟩⟩

/-- Settles O9: each seed is one register write, and the seeds after the last one of a register do not touch it. -/
theorem seedingWritesOnlyItsRegisters : Obligations.SeedingWritesOnlyItsRegisters :=
  fun seeds s => ⟨readReg_zero _, seedRegs_pc seeds s, seedRegs_halt seeds s, seedRegs_fault seeds s,
    seedRegs_mem seeds s, fun _ hr => seedRegs_readReg_of_notMem hr s,
    fun _ _ v hr hlater => seedRegs_readReg_of_last seeds v hr hlater s⟩

/-- Settles O52: a load keeps the memory canonical and the registers, the other actions keep the memory and slot 0, and
none writes a fault record. -/
theorem hostPreparationMeetsTheInvariant : Obligations.HostPreparationMeetsTheInvariant := by
  intro s hs hf
  have hmem : s.mem.wf := hs.1
  refine ⟨fun a v t h => ?loadWord, fun a v t h => ?loadByte, fun seeds => ?seedRegs, fun a => ?startRun,
    fun b => ?hostWriteHalt⟩
  case loadWord =>
    obtain ⟨m, hm, rfl⟩ := loadWord_ok h
    exact inv_of_slot_zero_eq hs (memWriteWord_wf hm hmem) rfl hf
  case loadByte =>
    obtain ⟨m, hm, rfl⟩ := loadByte_ok h
    exact inv_of_slot_zero_eq hs (memWriteByte_wf hm hmem) rfl hf
  case seedRegs =>
    refine inv_of_slot_zero_eq hs ?_ (seedRegs_slot_zero seeds s) ?_
    · rwa [seedRegs_mem]
    · rwa [seedRegs_fault]
  case startRun => exact inv_of_slot_zero_eq hs hmem rfl hf
  case hostWriteHalt => exact inv_of_slot_zero_eq hs hmem rfl hf

/-- Settles O59: a reset during the life of a core differs from the state after reset in its memory alone, and the
registers of that state all read 0 (`reset_readReg`). -/
theorem coreResetRestoresAllButMemory : Obligations.CoreResetRestoresAllButMemory :=
  ⟨fun _ => ⟨reset_readReg, rfl, rfl, rfl, rfl⟩, rfl⟩

end Sys2Proof.Machine
end

section
/-! PROOFS. The word of an instruction, read back, and the proof of the statement about the sample words
(95_test_vectors.md). -/

namespace Sys2Proof

/-- A word known to be the canonical one of an instruction within R70's ranges decodes to it, by the round trip (O15). -/
theorem decode_of_encode_eq {w : Word} {i : Instr} (hwf : i.wf = true) (hw : encode i = w) : decode w = .ok i :=
  hw ▸ decodeOfEncodeIsTheInstruction i hwf

/-! ### The statements of 95_test_vectors.md -/

/-- Settles O17: each word is the canonical word of its instruction, whose operands are in range, so it decodes to that
instruction. -/
theorem sampleWordsOfEveryFamilyDecode : Obligations.SampleWordsOfEveryFamilyDecode := by
  refine ⟨?_, ?_, ?_, ?_, ?_, ?_, ?_⟩ <;>
    exact decode_of_encode_eq (by decide) (by decide)

end Sys2Proof
end
